-- ==== Sys2Proof/Word.lean ====
section
/-! DEFINITION. The word types (00_scope.md R7, R10): XLEN = 32, one memory cell = one byte, a register index = 5 bits. -/

namespace Sys2Proof

/-- A 32-bit word: `pc`, a general register, `hi`, `lo`, a memory word, an instruction word, a float
register's bit pattern (R7: XLEN = FLEN = 32). -/
abbrev Word := BitVec 32

/-- One byte: a cell of the memory list, or one character of the input stream (R36). -/
abbrev Byte := BitVec 8

/-- A register index, a 5-bit field: every value is a valid index (R21). -/
abbrev RegIx := BitVec 5

end Sys2Proof
end

