-- ==== Sys2Proof/Syntax.lean ====
section
/-! DEFINITION. The twelve instructions (00_scope.md R6, 30_encoding.md R77, R79) as data, with the fields each reads. -/

namespace Sys2Proof

/-- The closed enumeration of opcodes (R6; log 24, UNVERIFIED): the twelve documented instructions, in the table's order.
The counters `count[op]` (R35) and the opcode map (R79) are indexed by it. -/
inductive Opcode where
  | j | beq | addi | lui | mult | lw | swo | fsub | fabs | ftoi | assert | charIn
  deriving DecidableEq, Repr

/-- Every opcode, once, in the table's order. -/
def Opcode.all : List Opcode :=
  [.j, .beq, .addi, .lui, .mult, .lw, .swo, .fsub, .fabs, .ftoi, .assert, .charIn]

/-- An instruction with the fields it reads, as R77 lists them. A field the instruction ignores is no part of it:
two words that differ only in ignored fields are the same instruction (R78; log 23, DEDUCED).
`charIn` is the table's IN, whose name is a word of Lean's own. -/
inductive Instr where
  /-- `J target` (R121). -/
  | j (addr : BitVec 26)
  /-- `BEQ xs, xt, off` (R120). -/
  | beq (rs rt : RegIx) (imm : BitVec 16)
  /-- `ADDI xt, xs, imm` (R110). -/
  | addi (rs rt : RegIx) (imm : BitVec 16)
  /-- `LUI xt, imm` (R111); `rs` is ignored. -/
  | lui (rt : RegIx) (imm : BitVec 16)
  /-- `MULT xs, xt` (R112); `rd` is ignored. -/
  | mult (rs rt : RegIx)
  /-- `LW xt, imm(xs)` (R131). -/
  | lw (rs rt : RegIx) (imm : BitVec 16)
  /-- `SWO xs, (xt + xd)` (R132): `rs` holds the value stored. -/
  | swo (rs rt rd : RegIx)
  /-- `FSUB fd, fs, ft` (R142). -/
  | fsub (rs rt rd : RegIx)
  /-- `FABS fd, fs` (R143); `rt` is ignored. -/
  | fabs (rs rd : RegIx)
  /-- `FTOI xd, fs` (R144); `rt` is ignored. -/
  | ftoi (rs rd : RegIx)
  /-- `ASSERT xs, imm` (R150); `rt` is ignored. -/
  | assert (rs : RegIx) (imm : BitVec 16)
  /-- `IN xd` (R151); `rs` and `rt` are ignored. -/
  | charIn (rd : RegIx)
  deriving DecidableEq, Repr

/-- The opcode an instruction is dispatched and counted under (R99, R193). -/
def Instr.opcode : Instr → Opcode
  | .j _ => .j
  | .beq _ _ _ => .beq
  | .addi _ _ _ => .addi
  | .lui _ _ => .lui
  | .mult _ _ => .mult
  | .lw _ _ _ => .lw
  | .swo _ _ _ => .swo
  | .fsub _ _ _ => .fsub
  | .fabs _ _ => .fabs
  | .ftoi _ _ => .ftoi
  | .assert _ _ => .assert
  | .charIn _ => .charIn

/-- The general register an instruction writes, if it writes one (R21: ADDI, LUI, LW write `x[rt]`; FTOI, IN
write `x[rd]`; no other instruction writes one). -/
def Instr.destX : Instr → Option RegIx
  | .j _ => none
  | .beq _ _ _ => none
  | .addi _ rt _ => some rt
  | .lui rt _ => some rt
  | .mult _ _ => none
  | .lw _ rt _ => some rt
  | .swo _ _ _ => none
  | .fsub _ _ _ => none
  | .fabs _ _ => none
  | .ftoi _ rd => some rd
  | .assert _ _ => none
  | .charIn rd => some rd

/-- The float register an instruction writes, if it writes one (R25: FSUB and FABS write `f[rd]`). -/
def Instr.destF : Instr → Option RegIx
  | .j _ => none
  | .beq _ _ _ => none
  | .addi _ _ _ => none
  | .lui _ _ => none
  | .mult _ _ => none
  | .lw _ _ _ => none
  | .swo _ _ _ => none
  | .fsub _ _ rd => some rd
  | .fabs _ rd => some rd
  | .ftoi _ _ => none
  | .assert _ _ => none
  | .charIn _ => none

end Sys2Proof
end

