-- ==== Sys2Proof/Config.lean ====
section
/-! DEFINITION. The engine's parameters (00_scope.md R7): the construction-time data `Setup`, the spec's default values,
and the free values, which are opaque. -/

namespace Sys2Proof

/-- Data memory as data: (byte address, byte) pairs. Word index `i` is the four cells `4 i` to `4 i + 3` (log 2, DESIGN CHOICE). -/
abbrev Memory := List Host.Cell

/-- What a cell that the list does not hold reads as. It is the representation's default and, with an empty list
at `State.reset`, the choice of an all-zero MEM_INIT there (log 3; DESIGN CHOICE, unsafe: R38 leaves MEM_INIT open). -/
def Config.unlistedByte : Byte := 0

/-- OPCODE_MAP (R79): the 6-bit opcode value of each of the twelve instructions. The spec asks for a configuration
table (D2), so the decoder takes one as an argument and `Setup` holds one. -/
structure OpcodeMap where
  j : BitVec 6
  beq : BitVec 6
  addi : BitVec 6
  lui : BitVec 6
  mult : BitVec 6
  lw : BitVec 6
  swo : BitVec 6
  fsub : BitVec 6
  fabs : BitVec 6
  ftoi : BitVec 6
  assert : BitVec 6
  charIn : BitVec 6
  deriving DecidableEq, Repr

/-- The value a map gives an opcode. -/
def OpcodeMap.code (m : OpcodeMap) : Opcode → BitVec 6
  | .j => m.j
  | .beq => m.beq
  | .addi => m.addi
  | .lui => m.lui
  | .mult => m.mult
  | .lw => m.lw
  | .swo => m.swo
  | .fsub => m.fsub
  | .fabs => m.fabs
  | .ftoi => m.ftoi
  | .assert => m.assert
  | .charIn => m.charIn

/-- The default OPCODE_MAP of R79 (log 11; the values are the spec's own defaults, D2). -/
def Config.opcodes : OpcodeMap where
  j := 0x02
  beq := 0x04
  addi := 0x08
  lui := 0x0F
  mult := 0x18
  lw := 0x23
  swo := 0x2F
  fsub := 0x31
  fabs := 0x32
  ftoi := 0x33
  assert := 0x3E
  charIn := 0x3F

/-- The history capacity C, "architecturally 256" (R7). -/
def Config.capacity : Nat := 256

/-- HALTED_REWIND_STEPS (R7, R190). -/
def Config.haltedRewindSteps : Nat := 2

/-- MEM_WORDS at `State.reset`: the spec's parameter has no value; 16 is the number its test vectors take
(95_test_vectors.md; log 4, DESIGN CHOICE, unsafe). -/
def Config.memWords : Nat := 16

/-- FREE VALUE (U4, log 8, DESIGN CHOICE): the sign bit of the NaN that FSUB gives for these two operands. -/
opaque Config.fsubNanSign : Word → Word → BitVec 1

/-- FREE VALUE (U4, log 8, DESIGN CHOICE): which of the 2^23 - 1 non-zero fractions the NaN of FSUB has, counted from 0. -/
opaque Config.fsubNanFraction : Word → Word → Fin 8388607

/-- FREE VALUE (U5, log 9, DESIGN CHOICE): what FTOI gives for an operand that has no 32-bit signed truncation. -/
opaque Config.ftoiFree : Word → Word

/-- One point of the configuration function `fsub32` (R7, R140): the machine's result for these two patterns. -/
structure FsubPoint where
  a : Word
  b : Word
  result : Word
  deriving DecidableEq, Repr

/-- One point of the configuration function `ftoi32` (R7, R141): the machine's result for this pattern. -/
structure FtoiPoint where
  a : Word
  result : Word
  deriving DecidableEq, Repr

/-- What is fixed when the engine is constructed (R12, R7): no step changes any of it (R30, R222). It is part of the
state, as plain data, so that a statement about every state ranges over every program and configuration
(log 15, DESIGN CHOICE). -/
structure Setup where
  /-- C, the history capacity in entries (R7: `C >= 2`). -/
  capacity : Nat
  /-- MEM_WORDS, the number of data-memory words (R7, R29). -/
  memWords : Nat
  /-- MEM_INIT, the contents of data memory at genesis (R7, R38). -/
  memInit : Memory
  /-- CODE, the program image; CODE_WORDS is its length (R7, R30). -/
  code : List Word
  /-- OPCODE_MAP (R79). -/
  opcodes : OpcodeMap
  /-- HALTED_REWIND_STEPS (R190). -/
  haltedRewindSteps : Nat
  /-- INTERACTIVE, the "interactive-vs-batch mode flag": accepted, and read by no rule (R7, D28; log 22, DESIGN CHOICE). -/
  interactive : Bool
  /-- The configuration function `fsub32` (R140, D12) as data: the operand pairs at which it is not the intended value, with
  its results there; the first point of a pair counts. There are finitely many pairs, so the lists range over every function
  of two patterns (log 36, DESIGN CHOICE). -/
  fsub : List FsubPoint
  /-- The configuration function `ftoi32` (R141, D15) as data: its results for operands that R141 states no result for; a point
  at any other operand is not read. The lists range over every function that R141 allows (log 36, DESIGN CHOICE). -/
  ftoi : List FtoiPoint
  deriving DecidableEq, Repr

/-- The spec's own values where it has them, and otherwise the choices of logs 3, 4, 5 and 22; no program. The float functions
have no point of their own: `fsub32` is the intended value (log 7, UNVERIFIED), and what `ftoi32` leaves open is free (log 9). -/
def Setup.default : Setup where
  capacity := Config.capacity
  memWords := Config.memWords
  memInit := []
  code := []
  opcodes := Config.opcodes
  haltedRewindSteps := Config.haltedRewindSteps
  interactive := true
  fsub := []
  ftoi := []

end Sys2Proof
end

