-- ==== Sys2Proof/Decode.lean ====
section
/-! DEFINITION. The bit-field codec, the operand decoders, opcode lookup and the decoder (40_codec_decoders.md), and
after them the encoder, both from one table of field positions (30_encoding.md R71-R75). -/

namespace Sys2Proof

/-- `extractBits(word, begin, end)` (R90): the bits `[b, e)` counted from the most significant bit as position 0,
unsigned, in 32 bits. Outside `b < e <= 32` the spec gives it no meaning (R91, U1), so the domain is a precondition
(log 31, DEDUCED). -/
def extractBits (w : Word) (b e : Nat) (_h : b < e ∧ e ≤ 32) : Word :=
  BitVec.ofNat 32 ((w.toNat >>> (32 - e)) % 2 ^ (e - b))

/-- `signExtend(value, bitWidth)` (R92): the low `n` bits as a two's-complement number, in 32 bits. The domain
`1 <= n <= 32` is a precondition (R93, U1; log 31, DEDUCED). -/
def signExtend (value : Word) (n : Nat) (_h : 1 ≤ n ∧ n ≤ 32) : Word :=
  let v := value.toNat % 2 ^ n
  if v < 2 ^ (n - 1) then BitVec.ofInt 32 v else BitVec.ofInt 32 ((v : Int) - 2 ^ n)

/-- The fields of the three formats (R72, R73, R74). -/
inductive Field where
  | opcode | rs | rt | rd | shamt | funct | immediate | addr
  deriving DecidableEq, Repr

/-- The MSB-first position of a field's first bit. This table and `Field.stop` are the only place where the layout
stands (R75: the classic MIPS layout, D1; log 12, UNVERIFIED). -/
def Field.start : Field → Nat
  | .opcode => 0
  | .rs => 6
  | .rt => 11
  | .rd => 16
  | .shamt => 21
  | .funct => 26
  | .immediate => 16
  | .addr => 6

/-- The MSB-first position just after a field's last bit. -/
def Field.stop : Field → Nat
  | .opcode => 6
  | .rs => 11
  | .rt => 16
  | .rd => 21
  | .shamt => 26
  | .funct => 32
  | .immediate => 32
  | .addr => 32

/-- Every field lies in the domain of `extractBits` (R91: "only fixed architectural offsets"). -/
theorem Field.inDomain (f : Field) : f.start < f.stop ∧ f.stop ≤ 32 := by cases f <;> decide

/-- A field's value in an instruction word, in 32 bits. -/
def Field.get (f : Field) (w : Word) : Word := extractBits w f.start f.stop f.inDomain

/-- A word that holds a value at a field's place and zeros elsewhere; the value must fit the field. -/
def Field.put (f : Field) (v : Word) : Word := v <<< (32 - f.stop)

/-- `OperandR` (R14, R72). -/
structure OperandR where
  rs : RegIx
  rt : RegIx
  rd : RegIx
  shamt : BitVec 5
  funct : BitVec 6
  deriving DecidableEq, Repr

/-- `OperandI` (R14, R73): the immediate is unsigned. -/
structure OperandI where
  rs : RegIx
  rt : RegIx
  immediate : BitVec 16
  deriving DecidableEq, Repr

/-- `OperandJ` (R14, R74). -/
structure OperandJ where
  addr : BitVec 26
  deriving DecidableEq, Repr

/-- `decodeR` (R94), total over all words (R97). -/
def decodeR (w : Word) : OperandR where
  rs := (Field.rs.get w).setWidth 5
  rt := (Field.rt.get w).setWidth 5
  rd := (Field.rd.get w).setWidth 5
  shamt := (Field.shamt.get w).setWidth 5
  funct := (Field.funct.get w).setWidth 6

/-- `decodeI` (R95), total over all words (R97). -/
def decodeI (w : Word) : OperandI where
  rs := (Field.rs.get w).setWidth 5
  rt := (Field.rt.get w).setWidth 5
  immediate := (Field.immediate.get w).setWidth 16

/-- `decodeJ` (R96), total over all words (R97). -/
def decodeJ (w : Word) : OperandJ where
  addr := (Field.addr.get w).setWidth 26

/-- `opcode(w) = extractBits(w, 0, 6)` (R71, R98). -/
def opcodeBits (w : Word) : BitVec 6 := (Field.opcode.get w).setWidth 6

/-- The opcode a 6-bit value stands for under a map, if any (R79, R80). -/
def OpcodeMap.lookup (m : OpcodeMap) (bits : BitVec 6) : Option Opcode :=
  Opcode.all.find? fun op => m.code op == bits

/-- The instruction of a word whose opcode is known: each opcode applies the decoder of its own format (R77, R99). -/
def assemble (op : Opcode) (w : Word) : Instr :=
  match op with
  | .j => .j (decodeJ w).addr
  | .beq => .beq (decodeI w).rs (decodeI w).rt (decodeI w).immediate
  | .addi => .addi (decodeI w).rs (decodeI w).rt (decodeI w).immediate
  | .lui => .lui (decodeI w).rt (decodeI w).immediate
  | .mult => .mult (decodeR w).rs (decodeR w).rt
  | .lw => .lw (decodeI w).rs (decodeI w).rt (decodeI w).immediate
  | .swo => .swo (decodeR w).rs (decodeR w).rt (decodeR w).rd
  | .fsub => .fsub (decodeR w).rs (decodeR w).rt (decodeR w).rd
  | .fabs => .fabs (decodeR w).rs (decodeR w).rd
  | .ftoi => .ftoi (decodeR w).rs (decodeR w).rd
  | .assert => .assert (decodeI w).rs (decodeI w).immediate
  | .charIn => .charIn (decodeR w).rd

/-- What decoding a word gives: an instruction, or the one rejection there is (R80, R81). -/
inductive Decoded where
  | instr (i : Instr)
  /-- No instruction has this opcode value (R80): dispatch halts with UnknownOpcode. -/
  | unknownOpcode (bits : BitVec 6)
  deriving DecidableEq, Repr

/-- The decoder, total over all words (R81: a word is the instruction its opcode names, or unknown). -/
def decode (m : OpcodeMap) (w : Word) : Decoded :=
  match m.lookup (opcodeBits w) with
  | some op => .instr (assemble op w)
  | none => .unknownOpcode (opcodeBits w)

/-- The instruction word of the table's row, whose bit 0 is the word's least significant bit; a word is the
hardware's own unit of storage in the code image (R30, R70), so there is no byte order to apply. -/
def decodeTableWord (nbits w : Nat) : Option Instr :=
  match decode Config.opcodes (BitVec.ofNat 32 (w % 2 ^ nbits)) with
  | .instr i => some i
  | .unknownOpcode _ => none

/-- The R-format word (R72). -/
def encodeR (op : BitVec 6) (o : OperandR) : Word :=
  Field.opcode.put (op.setWidth 32) ||| Field.rs.put (o.rs.setWidth 32) ||| Field.rt.put (o.rt.setWidth 32) |||
    Field.rd.put (o.rd.setWidth 32) ||| Field.shamt.put (o.shamt.setWidth 32) ||| Field.funct.put (o.funct.setWidth 32)

/-- The I-format word (R73). -/
def encodeI (op : BitVec 6) (o : OperandI) : Word :=
  Field.opcode.put (op.setWidth 32) ||| Field.rs.put (o.rs.setWidth 32) ||| Field.rt.put (o.rt.setWidth 32) |||
    Field.immediate.put (o.immediate.setWidth 32)

/-- The J-format word (R74). -/
def encodeJ (op : BitVec 6) (o : OperandJ) : Word :=
  Field.opcode.put (op.setWidth 32) ||| Field.addr.put (o.addr.setWidth 32)

/-- The word of an instruction under a map: ignored fields are assembled as zero (R83). -/
def encode (m : OpcodeMap) (i : Instr) : Word :=
  match i with
  | .j addr => encodeJ m.j ⟨addr⟩
  | .beq rs rt imm => encodeI m.beq ⟨rs, rt, imm⟩
  | .addi rs rt imm => encodeI m.addi ⟨rs, rt, imm⟩
  | .lui rt imm => encodeI m.lui ⟨0, rt, imm⟩
  | .mult rs rt => encodeR m.mult ⟨rs, rt, 0, 0, 0⟩
  | .lw rs rt imm => encodeI m.lw ⟨rs, rt, imm⟩
  | .swo rs rt rd => encodeR m.swo ⟨rs, rt, rd, 0, 0⟩
  | .fsub rs rt rd => encodeR m.fsub ⟨rs, rt, rd, 0, 0⟩
  | .fabs rs rd => encodeR m.fabs ⟨rs, 0, rd, 0, 0⟩
  | .ftoi rs rd => encodeR m.ftoi ⟨rs, 0, rd, 0, 0⟩
  | .assert rs imm => encodeI m.assert ⟨rs, 0, imm⟩
  | .charIn rd => encodeR m.charIn ⟨0, 0, rd, 0, 0⟩

end Sys2Proof
end

