-- ==== Sys2Proof/Machine/Flags.lean ====
section
/-! DEFINITION. This hardware has no flag and no condition code (10_state.md R27, 44_float.md R145): what stands here is
the two conditions its instructions test instead, and the one product it splits. -/

namespace Sys2Proof.Machine

/-- "Equality in BEQ and ASSERT is equality of 32-bit patterns" (R113 d). -/
def samePattern (a b : Word) : Bool := a == b

/-- The bounds check of LW and SWO passes (R52, R130): the word index is below MEM_WORDS. -/
def inBounds (memWords idx : Nat) : Bool := decide (idx < memWords)

/-- The 64-bit two's-complement pattern of the exact signed product (R112). -/
def signedProduct (a b : Word) : BitVec 64 := BitVec.ofInt 64 (a.toInt * b.toInt)

/-- `P[63:32]` of a product (R112): what MULT writes to `hi`. -/
def highHalf (p : BitVec 64) : Word := p.extractLsb' 32 32

/-- `P[31:0]` of a product (R112): what MULT writes to `lo`. -/
def lowHalf (p : BitVec 64) : Word := p.extractLsb' 0 32

end Sys2Proof.Machine
end

