-- ==== Sys2Proof/Machine/Operands.lean ====
section
/-! DEFINITION. Every operand form (30_encoding.md R76) and address form (43_load_store.md R130, 42_control_transfer.md
R120, R121). -/

namespace Sys2Proof.Machine

/-- `sext_16(imm)` (R76 a): the immediate of ADDI, LW and ASSERT. -/
def immSigned (imm : BitVec 16) : Word := signExtend (imm.setWidth 32) 16 (by decide)

/-- `imm << 16` (R76 a, R111): the immediate of LUI in the high half, zeros below. -/
def immUpper (imm : BitVec 16) : Word := imm ++ 0#16

/-- `pc + 4` modulo 2^32 (R11, R23; log 33, UNVERIFIED). -/
def nextPc (pc : Word) : Word := pc + 4

/-- The taken target of BEQ (R120): the branch's own address plus four times the signed offset, modulo 2^32
(log 29, UNVERIFIED). -/
def branchTarget (pc : Word) (imm : BitVec 16) : Word := pc + (immSigned imm <<< 2)

/-- The target of J (R121): the jump's own four top bits, the 26-bit word address, two zero bits
(log 29, UNVERIFIED). -/
def jumpTarget (pc : Word) (addr : BitVec 26) : Word := (pc &&& 0xF0000000#32) ||| (addr.setWidth 32 <<< 2)

/-- Register plus sign-extended displacement (R130, R131), modulo 2^32. -/
def eaDisplaced (base : Word) (imm : BitVec 16) : Word := base + immSigned imm

/-- Register plus register (R130, R132), modulo 2^32. -/
def eaIndexed (a b : Word) : Word := a + b

/-- The word index of a byte address (R51, R55, R182): read as unsigned and divided by 4, the two low bits dropped
(logs 17 and 30, UNVERIFIED). -/
def wordIndex (ea : Word) : Nat := ea.toNat >>> 2

/-- `zext_8(b)` (R151): how a character fills a register. -/
def byteToWord (b : Byte) : Word := b.setWidth 32

end Sys2Proof.Machine
end

