-- ==== Sys2Proof/Machine/State.lean ====
section
/-! DEFINITION. The engine's state as plain data (10_state.md), its reset (R38, R220), and the reasons a step can stop. -/

namespace Sys2Proof.Machine

/-- The five halt reasons, a closed list (R200). A halt is no fault of the model: it is a next state, with the
reason recorded in `State.halt` (R207). -/
inductive HaltReason where
  | programCounterOutOfRange
  | unknownOpcode
  | outOfRange
  | assertionFailed
  | inputExhausted
  deriving DecidableEq, Repr

/-- A memory patch (R26): the word index of the one word the instruction wrote, the word before and the word after
(log 35, UNVERIFIED). -/
structure Patch where
  idx : Nat
  prior : Word
  new : Word
  deriving DecidableEq, Repr

/-- The spec's per-step `State` record (R20), one history entry. It is called a snapshot here because `State` is the
whole engine's. -/
structure Snapshot where
  /-- The byte address of the next instruction (R23). -/
  pc : Word
  /-- The general registers (R21). Register 0 is ordinary storage (R22; log 13, UNVERIFIED). -/
  x : Vector Word 32
  /-- The float registers, as bit patterns (R25). -/
  f : Vector Word 32
  /-- The high half of a multiply's result (R24). -/
  hi : Word
  /-- The low half of a multiply's result (R24). -/
  lo : Word
  /-- The memory write of the instruction that produced this entry, if it made one (R26). -/
  patch : Option Patch
  deriving DecidableEq, Repr

/-- The genesis state: "program start, PC = 0, all registers zero" (R38; the float pattern: log 25, UNVERIFIED). -/
def Snapshot.genesis : Snapshot where
  pc := 0
  x := Vector.replicate 32 0
  f := Vector.replicate 32 0
  hi := 0
  lo := 0
  patch := none

/-- The history buffer with its cursor (R31, R32), cut at the cursor: the entries before it, the entry it is on, the
entries after it. That there is an entry and that the cursor is on one (R161 H1, H2) holds by this form (log 1, DESIGN CHOICE). -/
structure History where
  /-- The entries before the cursor, newest first: the last of the list is the head of the buffer. -/
  older : List Snapshot
  /-- The entry at the cursor: the current state (R32). -/
  now : Snapshot
  /-- The entries after the cursor, oldest first: the last of the list is the tail of the buffer. -/
  newer : List Snapshot
  deriving DecidableEq, Repr

/-- The spec's `hist`: the retained entries from head to tail (R31). -/
def History.entries (h : History) : List Snapshot := h.older.reverse ++ h.now :: h.newer

/-- The spec's `n`: how many entries are retained (R31). -/
def History.size (h : History) : Nat := h.older.length + 1 + h.newer.length

/-- The spec's `cur`: the index of the current entry in `entries` (R32). -/
def History.cursor (h : History) : Nat := h.older.length

/-- The statistics (R35): one counter per opcode and the total, unbounded (D24; log 16, UNVERIFIED). -/
structure Stats where
  j : Nat
  beq : Nat
  addi : Nat
  lui : Nat
  mult : Nat
  lw : Nat
  swo : Nat
  fsub : Nat
  fabs : Nat
  ftoi : Nat
  assert : Nat
  charIn : Nat
  total : Nat
  deriving DecidableEq, Repr

/-- All counters zero (R38). -/
def Stats.zero : Stats := ⟨0, 0, 0, 0, 0, 0, 0, 0, 0, 0, 0, 0, 0⟩

/-- The host's commands (R12), as already parsed values (R4). `quit` is outside the block. -/
inductive Command where
  /-- `RUN` (R187, R189). -/
  | run
  /-- `STEP` (R188, R191). -/
  | step
  /-- `REWIND` (R190). -/
  | rewind
  /-- `SET_BP(a)` (R192). -/
  | setBp (a : Word)
  /-- `CLR_BP(a)` (R192). -/
  | clrBp (a : Word)
  /-- `PAUSE` (R187): the one command accepted while running, and only then (R180). -/
  | pause
  /-- `list-breakpoints` (R12): reads state and changes nothing. -/
  | listBreakpoints
  /-- `help` (R12): changes nothing. -/
  | help
  deriving DecidableEq, Repr

/-- The state of the whole engine. -/
structure State where
  /-- What construction fixed (R7, R12): CODE, MEM_WORDS, MEM_INIT and the other parameters. -/
  setup : Setup
  /-- The history buffer and its cursor (R31, R32). -/
  hist : History
  /-- Data memory, shared and mutated in place (R29). -/
  mem : Memory
  /-- The input stream: absent, or the bytes not yet consumed (R36). -/
  input : Option (List Byte)
  /-- Set while in `FreeRunning`, clear while awaiting a command (R33, R180). -/
  running : Bool
  /-- `Halted(reason)`, if halted (R33). -/
  halt : Option HaltReason
  /-- The breakpoint set (R34), as a strictly rising list (log 26, DESIGN CHOICE). -/
  bp : List Word
  /-- The statistics (R35). -/
  stats : Stats
  /-- THE MODEL'S OWN FIELD (log 6, DESIGN CHOICE): the host's schedule, one entry for each step that looks at it, oldest first;
  `none` is "no command arrives now". -/
  arrivals : List (Option Command)
  deriving DecidableEq, Repr

/-- The engine right after construction (R38, R220 a): genesis, memory at MEM_INIT, no breakpoint, the whole stream. -/
def State.construct (c : Setup) (input : Option (List Byte)) : State where
  setup := c
  hist := ⟨[], Snapshot.genesis, []⟩
  mem := c.memInit
  input := input
  running := false
  halt := none
  bp := []
  stats := Stats.zero
  arrivals := []

/-- The machine right after reset: construction with the default setup (no program, log 5; 16 words of zeros, logs 3
and 4) and no input stream (log 18, UNVERIFIED). -/
def State.reset : State := State.construct Setup.default none

/-- No step of this machine faults: every fatal condition of the spec is a halt, which is a next state (R200, R207),
and its list is closed. Safe: there is nothing to raise. -/
inductive Fault where
  deriving DecidableEq, Repr

/-- Why an instruction has no outcome. -/
inductive Refusal where
  /-- An instruction without a meaning: no arm of `exec` raises it in this model. Safe. -/
  | notModelled (mnemonic : String)
  /-- Raised by every instruction's meaning, through the one operation that appends to the history, where the cursor is
  not at the tail: `append` there "has no defined meaning" (R162, R227, U2: `refuse`). `step` never raises it, because
  the control loop replays instead (R183, R185). Safe (log 14, DEDUCED). -/
  | appendOffTail
  deriving DecidableEq, Repr

end Sys2Proof.Machine
end

