-- ==== Sys2Proof/WellFormed.lean ====
section
/-! DEFINITION. The checks: memory's canonical form, a legal configuration (R7, R79), and the register-0 convention (R22),
which no step enforces. No field value of an instruction is illegal (R78, R97), so an `Instr` needs no check to be run. -/

namespace Sys2Proof

/-- The canonical form of memory from address `lo` up: addresses strictly rising, none below `lo`, and no cell equal
to what an unlisted cell reads as. -/
def Memory.wfFrom : Nat → Memory → Bool
  | _, [] => true
  | lo, (a, v) :: rest => decide (lo ≤ a) && (v != Config.unlistedByte) && Memory.wfFrom (a + 1) rest

/-- The canonical form of memory: equal contents are equal lists. -/
def Memory.wf (m : Memory) : Bool := Memory.wfFrom 0 m

/-- Every cell of the memory lies in a word below `words` (R58: byte addresses `0` to `4 * MEM_WORDS - 1`). -/
def Memory.within (words : Nat) (m : Memory) : Bool := m.all fun c => decide (c.1 < 4 * words)

/-- OPCODE_MAP is injective (R7, R79). -/
def OpcodeMap.injective (m : OpcodeMap) : Bool := decide (Opcode.all.map m.code).Nodup

/-- A legal configuration (R7): `C >= 2` (R228, D29), an injective opcode map, and MEM_INIT in canonical form over
MEM_WORDS words. CODE may be any list of words, MEM_WORDS any number, and the
numerics any functions that R140 and R141 allow. -/
def Setup.wf (c : Setup) : Bool :=
  decide (2 ≤ c.capacity) && c.opcodes.injective && c.memInit.wf && c.memInit.within c.memWords

/-- The convention of R22 seen by an assembler: the instruction does not name register 0 as its destination. It is
a property of programs, "not of the hardware": nothing in the machine reads it. -/
def Instr.sparesRegZero (i : Instr) : Bool := i.destX != some 0

end Sys2Proof
end

