-- ==== Sys2Proof/Machine/Ops.lean ====
section
/-! DEFINITION. The named operations over memory, registers, history, statistics, breakpoints and input, and the two that
stop and restart a run: taking a halt, and leaving the halted condition. Every meaning is written over these. -/

namespace Sys2Proof

/-- The byte of one cell; an unlisted cell reads as `Config.unlistedByte`. -/
def Memory.read : Memory → Nat → Byte
  | [], _ => Config.unlistedByte
  | (a, v) :: rest, at_ => if a = at_ then v else Memory.read rest at_

/-- One cell's byte replaced, in canonical form: no cell equal to what an unlisted cell reads as is listed. -/
def Memory.write : Memory → Nat → Byte → Memory
  | [], a, v => if v = Config.unlistedByte then [] else [(a, v)]
  | (b, u) :: rest, a, v =>
    if a < b then (if v = Config.unlistedByte then (b, u) :: rest else (a, v) :: (b, u) :: rest)
    else if a = b then (if v = Config.unlistedByte then rest else (a, v) :: rest)
    else (b, u) :: Memory.write rest a v

/-- `MemRead(idx)` (R53): the 32-bit word at a word index, its four cells with the least significant byte in the lowest
one. The spec states no byte order and none can be observed (R56; log 2, DESIGN CHOICE). -/
def Memory.readWord (m : Memory) (idx : Nat) : Word :=
  m.read (4 * idx + 3) ++ m.read (4 * idx + 2) ++ m.read (4 * idx + 1) ++ m.read (4 * idx)

/-- The storing half of `MemWrite(idx, v)` (R54): the word's four cells, in place. -/
def Memory.writeWord (m : Memory) (idx : Nat) (v : Word) : Memory :=
  (((m.write (4 * idx) (v.extractLsb' 0 8)).write (4 * idx + 1) (v.extractLsb' 8 8)).write (4 * idx + 2)
    (v.extractLsb' 16 8)).write (4 * idx + 3) (v.extractLsb' 24 8)

end Sys2Proof

namespace Sys2Proof.Machine

/-- The current state: the entry at the cursor (R20, R32). -/
def State.now (s : State) : Snapshot := s.hist.now

/-- `x[r]` (R10, R21). -/
def Snapshot.readX (s : Snapshot) (r : RegIx) : Word := s.x[r.toNat]'r.isLt

/-- `x[r] <- v` (R10): every register is written like any other, register 0 too (R22; log 13, UNVERIFIED). -/
def Snapshot.writeX (s : Snapshot) (r : RegIx) (v : Word) : Snapshot := { s with x := s.x.set r.toNat v r.isLt }

/-- `f[r]` (R10, R25). -/
def Snapshot.readF (s : Snapshot) (r : RegIx) : Word := s.f[r.toNat]'r.isLt

/-- `f[r] <- v` (R10, R25). -/
def Snapshot.writeF (s : Snapshot) (r : RegIx) (v : Word) : Snapshot := { s with f := s.f.set r.toNat v r.isLt }

/-- `hi <- h`, `lo <- l` (R112). -/
def Snapshot.writeHiLo (s : Snapshot) (h l : Word) : Snapshot := { s with hi := h, lo := l }

/-- The frame every instruction starts from (R11): the next snapshot has an empty patch and a `pc` of its own, and is
otherwise the current one. -/
def Snapshot.goTo (s : Snapshot) (pc : Word) : Snapshot := { s with pc := pc, patch := none }

/-- The frame of an instruction that does not write `pc`: it goes on at `pc + 4` (R11). -/
def Snapshot.fallThrough (s : Snapshot) : Snapshot := s.goTo (nextPc s.pc)

/-- `patch <- (idx, old, v)` of `MemWrite` (R54). -/
def Snapshot.withPatch (s : Snapshot) (p : Patch) : Snapshot := { s with patch := some p }

/-- Redo a patch on memory (R164): `mem[idx] <- new`. -/
def redoPatch (p : Option Patch) (m : Memory) : Memory :=
  match p with
  | some p => m.writeWord p.idx p.new
  | none => m

/-- Undo a patch on memory (R165): `mem[idx] <- prior`. -/
def undoPatch (p : Option Patch) (m : Memory) : Memory :=
  match p with
  | some p => m.writeWord p.idx p.prior
  | none => m

/-- `append(s)` (R162) with the eviction of R163: the new entry becomes the tail and the current one, and where more
than `cap` entries result the head is dropped. With the cursor not at the tail it has no meaning (U2). -/
def History.append (cap : Nat) (s : Snapshot) (h : History) : Option History :=
  match h.newer with
  | [] =>
    let older := h.now :: h.older
    some ⟨if older.length + 1 > cap then older.dropLast else older, s, []⟩
  | _ :: _ => none

/-- The cursor's part of `advance(cursor)` (R164): one entry later. At the tail it has no meaning (U2). -/
def History.advance (h : History) : Option History :=
  match h.newer with
  | [] => none
  | e :: rest => some ⟨h.now :: h.older, e, rest⟩

/-- The cursor's part of `rewind(cursor)` (R165): one entry earlier; at the head, nothing. -/
def History.rewind (h : History) : History :=
  match h.older with
  | [] => h
  | e :: rest => ⟨rest, e, h.now :: h.newer⟩

/-- `advance(cursor)` (R164): the cursor moves one entry later and that entry's patch is redone on memory. At the tail
it has no meaning (U2). -/
def State.advance (s : State) : Option State :=
  match s.hist.advance with
  | some h => some { s with hist := h, mem := redoPatch h.now.patch s.mem }
  | none => none

/-- `rewind(cursor)` (R165): the patch of the entry the cursor leaves is undone on memory (C4) and the cursor moves one
entry earlier; at the head nothing happens, to memory neither. -/
def State.rewind (s : State) : State :=
  match s.hist.older with
  | [] => s
  | _ :: _ => { s with hist := s.hist.rewind, mem := undoPatch s.hist.now.patch s.mem }

/-- `count[op]` (R35). -/
def Stats.count (c : Stats) : Opcode → Nat
  | .j => c.j
  | .beq => c.beq
  | .addi => c.addi
  | .lui => c.lui
  | .mult => c.mult
  | .lw => c.lw
  | .swo => c.swo
  | .fsub => c.fsub
  | .fabs => c.fabs
  | .ftoi => c.ftoi
  | .assert => c.assert
  | .charIn => c.charIn

/-- `count[op] <- count[op] + 1; total <- total + 1` (R193). -/
def Stats.bump (c : Stats) (op : Opcode) : Stats :=
  let c := { c with total := c.total + 1 }
  match op with
  | .j => { c with j := c.j + 1 }
  | .beq => { c with beq := c.beq + 1 }
  | .addi => { c with addi := c.addi + 1 }
  | .lui => { c with lui := c.lui + 1 }
  | .mult => { c with mult := c.mult + 1 }
  | .lw => { c with lw := c.lw + 1 }
  | .swo => { c with swo := c.swo + 1 }
  | .fsub => { c with fsub := c.fsub + 1 }
  | .fabs => { c with fabs := c.fabs + 1 }
  | .ftoi => { c with ftoi := c.ftoi + 1 }
  | .assert => { c with assert := c.assert + 1 }
  | .charIn => { c with charIn := c.charIn + 1 }

/-- The statistics of one iteration that did not halt, fresh or replayed (R193). -/
def State.countOne (s : State) (op : Opcode) : State := { s with stats := s.stats.bump op }

/-- TAKING A HALT (R207), the one operation every halt goes through: the reason is recorded and the run stops; nothing
else changes, nothing is saved and control goes nowhere. -/
def State.takeHalt (s : State) (r : HaltReason) : State := { s with halt := some r, running := false }

/-- The halt status as the number the host reads (R200's table; the codes are the spec's decision D19; log 28, UNVERIFIED). -/
def haltCode : Option HaltReason → Nat
  | none => 0
  | some .programCounterOutOfRange => 1
  | some .unknownOpcode => 2
  | some .outOfRange => 3
  | some .assertionFailed => 4
  | some .inputExhausted => 5

/-- LEAVING THE HALTED CONDITION (R190, R189): no reason is recorded any more and a command is awaited. -/
def State.clearHalt (s : State) : State := { s with halt := none, running := false }

/-- The end of a fresh execution that continues (R184): the new snapshot is appended and the instruction counted. Off
the tail `append` has no meaning, and neither has the instruction (U2; log 14, DEDUCED). -/
def State.retire (s : State) (op : Opcode) (next : Snapshot) : Host.Outcome State Fault Refusal :=
  match s.hist.append s.setup.capacity next with
  | some h => .next ({ s with hist := h }.countOne op)
  | none => .refused .appendOffTail

/-- The end of a fresh execution that halts (R184): no entry is appended and no counter moves. -/
def State.haltWith (s : State) (r : HaltReason) : Host.Outcome State Fault Refusal := .next (s.takeHalt r)

/-- `MemWrite(idx, v)`, the memory half (R54): in place, at once. -/
def State.storeWord (s : State) (idx : Nat) (v : Word) : State := { s with mem := s.mem.writeWord idx v }

/-- `InputPop()` (R152): the first byte of the stream and the rest, or nothing where the stream is empty or absent. -/
def inputPop (input : Option (List Byte)) : Option (Byte × List Byte) :=
  match input with
  | some (b :: rest) => some (b, rest)
  | some [] => none
  | none => none

/-- The stream after a byte was popped (R152). -/
def State.setInput (s : State) (rest : List Byte) : State := { s with input := some rest }

/-- `reset()` of the history (R166): genesis alone, whether or not it was still retained, and memory at MEM_INIT. -/
def State.resetHistory (s : State) : State :=
  { s with hist := ⟨[], Snapshot.genesis, []⟩, mem := s.setup.memInit }

/-- The full reset (R189): history, memory and statistics as at genesis and no halt; the breakpoint set, the input
stream and the configuration stay (R222, D20, D17; log 20, UNVERIFIED). -/
def State.fullReset (s : State) : State := { s.resetHistory with stats := Stats.zero, halt := none, running := false }

/-- `k` calls of `rewind(cursor)` (R190). -/
def State.rewindTimes : Nat → State → State
  | 0, s => s
  | k + 1, s => State.rewindTimes k s.rewind

/-- A 32-bit value put into the breakpoint set (R192); one already there stays as it is. -/
def insertBp (a : Word) : List Word → List Word
  | [] => [a]
  | b :: rest =>
    if a.toNat < b.toNat then a :: b :: rest else if a = b then b :: rest else b :: insertBp a rest

/-- A 32-bit value taken out of the breakpoint set (R192); one not there changes nothing. -/
def removeBp (a : Word) : List Word → List Word
  | [] => []
  | b :: rest => if a = b then removeBp a rest else b :: removeBp a rest

/-- Fetch (R182): the word at the current entry's `pc / 4`, or nothing where that is outside the code image. Only CODE
is read (R61). -/
def State.fetch (s : State) : Option Word := s.setup.code[wordIndex s.hist.now.pc]?

/-- The host gives the engine one more command, after those already scheduled (R12, R196; log 6, DESIGN CHOICE). It is what the outside
does between steps, and no step does it. -/
def State.issue (s : State) (c : Command) : State := { s with arrivals := s.arrivals ++ [some c] }

/-- A code image with a word at an index; words of zeros fill the places up to it, if it was shorter. -/
def placeWord (code : List Word) (idx : Nat) (w : Word) : List Word :=
  (code ++ List.replicate (idx + 1 - code.length) 0).set idx w

/-- The state with a word where the next fetch reads, free-running, not halted and with the cursor at the tail, so that
the very next step fetches this word and executes it afresh. It stands for the host's loading of a program and its
`RUN` (log 5, DESIGN CHOICE): no step does it. -/
def State.loadNext (s : State) (w : Word) : State :=
  { s with
    setup := { s.setup with code := placeWord s.setup.code (wordIndex s.hist.now.pc) w }
    hist := { s.hist with newer := [] }
    running := true
    halt := none }

end Sys2Proof.Machine
end

