-- ==== Sys2Proof/Machine/ControlTransfer.lean ====
section
/-! DEFINITION. The control transfers BEQ and J (42_control_transfer.md). Neither halts: a target outside the code image
is found by the next fetch (R122 d). -/

namespace Sys2Proof.Machine

/-- BEQ (R120): on equal 32-bit patterns to the branch's own address plus four times the offset, else to `pc + 4`. -/
def execBeq (rs rt : RegIx) (imm : BitVec 16) (s : State) : Host.Outcome State Fault Refusal :=
  s.retire .beq
    (if samePattern (s.now.readX rs) (s.now.readX rt) then s.now.goTo (branchTarget s.now.pc imm)
      else s.now.fallThrough)

/-- J (R121): to `pc[31:28] ++ addr ++ 00`; no register is written. -/
def execJ (addr : BitVec 26) (s : State) : Host.Outcome State Fault Refusal :=
  s.retire .j (s.now.goTo (jumpTarget s.now.pc addr))

end Sys2Proof.Machine
end

