-- ==== Sys2Proof/Machine/Numerics.lean ====
section
/-! DEFINITION. The binary32 numerics of 44_float.md: the format (R146), and the configuration functions `fsub32` (R140) and
`ftoi32` (R141), whose stated values are computed by exact integer arithmetic. -/

namespace Sys2Proof.Machine

/-- The sign bit, bit 31 (R146). -/
def F32.sign (a : Word) : BitVec 1 := a.extractLsb' 31 1

/-- The exponent field, bits 30:23 (R146). -/
def F32.exponent (a : Word) : BitVec 8 := a.extractLsb' 23 8

/-- The fraction field, bits 22:0 (R146). -/
def F32.fraction (a : Word) : BitVec 23 := a.extractLsb' 0 23

/-- A pattern from its three fields (R146). -/
def F32.ofFields (s : BitVec 1) (e : BitVec 8) (fr : BitVec 23) : Word := s ++ e ++ fr

/-- "A NaN is any pattern with exponent 255 and non-zero fraction" (R146). -/
def F32.isNaN (a : Word) : Bool := F32.exponent a == 255 && F32.fraction a != 0

/-- An infinity: exponent 255 and fraction zero (R146). -/
def F32.isInf (a : Word) : Bool := F32.exponent a == 255 && F32.fraction a == 0

/-- A finite pattern: a zero, a subnormal or a normal number. -/
def F32.isFinite (a : Word) : Bool := F32.exponent a != 255

/-- The infinity of a sign. -/
def F32.infinity (s : BitVec 1) : Word := F32.ofFields s 255 0

/-- The magnitude of a finite pattern in units of 2^-149, the least subnormal: every finite binary32 value is a whole
number of these units. The significand has its leading one unless the exponent field is zero, and the exponent field
0 has the scale of 1. -/
def F32.magnitude (a : Word) : Nat :=
  if F32.exponent a = 0 then (F32.fraction a).toNat
  else ((F32.fraction a).toNat + 2 ^ 23) * 2 ^ ((F32.exponent a).toNat - 1)

/-- The value of a finite pattern in units of 2^-149, exactly. Both zeros have the value 0. -/
def F32.value (a : Word) : Int :=
  if F32.sign a = 0 then (F32.magnitude a : Int) else -(F32.magnitude a : Int)

/-- The 31 low bits, exponent and fraction, of the binary32 number nearest to a magnitude of `n` units of 2^-149, ties
to even (R140). `n` is cut to 24 significant bits by dropping `sh`; the exponent field is then `sh` and the leading one
of the 24 bits together, so that a carry out of the rounding lands in the exponent by itself and a magnitude below
2^24 units, the subnormals among them, is exact. The result can reach or pass the pattern of infinity. -/
def F32.roundMagnitude (n : Nat) : Nat :=
  let sh := n.log2 - 23
  let q := n / 2 ^ sh
  let r := n % 2 ^ sh
  let up := 2 * r > 2 ^ sh ∨ (2 * r = 2 ^ sh ∧ q % 2 = 1)
  sh * 2 ^ 23 + (if up then q + 1 else q)

/-- A sign and a magnitude in units of 2^-149 as a binary32 pattern: rounded to nearest, ties to even, and from the
overflow threshold up the infinity of the sign (R140). -/
def F32.round (s : BitVec 1) (n : Nat) : Word :=
  let bits := F32.roundMagnitude n
  if bits ≥ 255 * 2 ^ 23 then F32.infinity s
  else s ++ BitVec.ofNat 31 bits

/-- The NaN that FSUB gives for two operands: some NaN, which one is a free value of the operands (R140, U4; log 8, DESIGN CHOICE).
Every NaN pattern is possible: both signs and every non-zero fraction. -/
def F32.fsubNaN (a b : Word) : Word :=
  F32.ofFields (Config.fsubNanSign a b) 255 (BitVec.ofNat 23 ((Config.fsubNanFraction a b).val + 1))

/-- The intended value of `fsub32(a, b)` (R140, D12; log 7, UNVERIFIED): the binary32 result of `a - b`. -/
def fsub32Intended (a b : Word) : Word :=
  if F32.isNaN a || F32.isNaN b then F32.fsubNaN a b
  else if F32.isInf a then
    (if F32.isInf b && F32.sign a == F32.sign b then F32.fsubNaN a b else a)
  else if F32.isInf b then F32.infinity (~~~ F32.sign b)
  else
    let d := F32.value a - F32.value b
    if d = 0 then
      -- an exact zero is +0.0, but -0.0 minus +0.0, which keeps the sign both terms have
      (if F32.sign a = 1 ∧ F32.sign b = 0 then F32.ofFields 1 0 0 else F32.ofFields 0 0 0)
    else F32.round (if d < 0 then 1 else 0) d.natAbs

/-- The result that a configuration lists for two operands of `fsub32`, if it lists one. -/
def fsubListed (c : Setup) (a b : Word) : Option Word :=
  (c.fsub.find? fun p => p.a == a && p.b == b).map FsubPoint.result

/-- `fsub32(a, b)` (R140): the machine's subtraction, "a configuration function" of its two operands alone. It is the intended
value where the configuration lists nothing else (log 36, DESIGN CHOICE). -/
def fsub32 (c : Setup) (a b : Word) : Word := (fsubListed c a b).getD (fsub32Intended a b)

/-- The value of a finite pattern rounded toward zero to an integer, the fraction dropped (R141). -/
def F32.trunc (a : Word) : Int := (F32.value a).tdiv (2 ^ 149)

/-- The operands that have a 32-bit signed truncation (R141, D15; log 10, UNVERIFIED). -/
def F32.convertible (a : Word) : Bool := F32.isFinite a && decide (-(2 ^ 31) ≤ F32.trunc a) && decide (F32.trunc a < 2 ^ 31)

/-- The result that a configuration lists for an operand of `ftoi32`, if it lists one. -/
def ftoiListed (c : Setup) (a : Word) : Option Word := (c.ftoi.find? fun p => p.a == a).map FtoiPoint.result

/-- `ftoi32(a)` (R141): the machine's truncating cast, "a configuration function" of its operand. R141 states its value where
the operand has a 32-bit signed truncation: the two's-complement pattern of that. For a NaN, an infinity or a truncation outside
the signed range the spec states none (U5): it is what the configuration lists (log 36, DESIGN CHOICE), else a free value of the
operand (log 9, DESIGN CHOICE). -/
def ftoi32 (c : Setup) (a : Word) : Word :=
  if F32.convertible a then BitVec.ofInt 32 (F32.trunc a) else (ftoiListed c a).getD (Config.ftoiFree a)

/-- The absolute value of a binary32 pattern (R143, D14): clear bit 31, keep the other 31, for every pattern. -/
def fabs32 (a : Word) : Word := a &&& 0x7FFFFFFF#32

end Sys2Proof.Machine
end

