-- ==== Sys2Proof/Machine/Floating.lean ====
section
/-! DEFINITION. The floating-point instructions FSUB, FABS, FTOI (44_float.md). No flags, no traps, no halts (R145). -/

namespace Sys2Proof.Machine

/-- FSUB (R142): `f[rd] <- fsub32(f[rs], f[rt])`. The roles of the fields are the spec's decision D13 (log 19, UNVERIFIED). -/
def execFsub (rs rt rd : RegIx) (s : State) : Host.Outcome State Fault Refusal :=
  s.retire .fsub (s.now.fallThrough.writeF rd (fsub32 s.setup (s.now.readF rs) (s.now.readF rt)))

/-- FABS (R143): `f[rd] <- f[rs] & 0x7FFFFFFF`. The roles of the fields are the spec's decision D13 (log 19, UNVERIFIED). -/
def execFabs (rs rd : RegIx) (s : State) : Host.Outcome State Fault Refusal :=
  s.retire .fabs (s.now.fallThrough.writeF rd (fabs32 (s.now.readF rs)))

/-- FTOI (R144): `x[rd] <- ftoi32(f[rs])`. -/
def execFtoi (rs rd : RegIx) (s : State) : Host.Outcome State Fault Refusal :=
  s.retire .ftoi (s.now.fallThrough.writeX rd (ftoi32 s.setup (s.now.readF rs)))

end Sys2Proof.Machine
end

