-- ==== Sys2Proof/Machine/Integer.lean ====
section
/-! DEFINITION. The integer instructions ADDI, LUI, MULT (41_integer.md). None halts (R113 b). -/

namespace Sys2Proof.Machine

/-- ADDI (R110): `x[rt] <- x[rs] + sext_16(imm)` modulo 2^32. -/
def execAddi (rs rt : RegIx) (imm : BitVec 16) (s : State) : Host.Outcome State Fault Refusal :=
  s.retire .addi (s.now.fallThrough.writeX rt (s.now.readX rs + immSigned imm))

/-- LUI (R111): `x[rt] <- imm ++ 0x0000`. -/
def execLui (rt : RegIx) (imm : BitVec 16) (s : State) : Host.Outcome State Fault Refusal :=
  s.retire .lui (s.now.fallThrough.writeX rt (immUpper imm))

/-- MULT (R112): the 64-bit signed product of `x[rs]` and `x[rt]`, its high half to `hi`, its low half to `lo`. -/
def execMult (rs rt : RegIx) (s : State) : Host.Outcome State Fault Refusal :=
  let p := signedProduct (s.now.readX rs) (s.now.readX rt)
  s.retire .mult (s.now.fallThrough.writeHiLo (highHalf p) (lowHalf p))

end Sys2Proof.Machine
end

