-- ==== Sys2Proof/Machine/LoadStore.lean ====
section
/-! DEFINITION. The load LW and the store SWO (43_load_store.md). Both check the word index before any effect (R130). -/

namespace Sys2Proof.Machine

/-- LW (R131): `x[rt] <- mem[idx]` of `ea = x[rs] + sext_16(imm)`, or the halt OutOfRange. -/
def execLw (rs rt : RegIx) (imm : BitVec 16) (s : State) : Host.Outcome State Fault Refusal :=
  let idx := wordIndex (eaDisplaced (s.now.readX rs) imm)
  if inBounds s.setup.memWords idx then s.retire .lw (s.now.fallThrough.writeX rt (s.mem.readWord idx))
  else s.haltWith .outOfRange

/-- SWO (R132): `mem[idx] <- x[rs]` of `ea = x[rt] + x[rd]`, with the patch `(idx, old, x[rs])` in the next snapshot
(R54), or the halt OutOfRange. -/
def execSwo (rs rt rd : RegIx) (s : State) : Host.Outcome State Fault Refusal :=
  let idx := wordIndex (eaIndexed (s.now.readX rt) (s.now.readX rd))
  let v := s.now.readX rs
  if inBounds s.setup.memWords idx then
    (s.storeWord idx v).retire .swo (s.now.fallThrough.withPatch ⟨idx, s.mem.readWord idx, v⟩)
  else s.haltWith .outOfRange

end Sys2Proof.Machine
end

