-- ==== Sys2Proof/Machine/System.lean ====
section
/-! DEFINITION. The system instructions ASSERT and IN (45_system.md). -/

namespace Sys2Proof.Machine

/-- ASSERT (R150): the halt AssertionFailed where `x[rs]` differs from `sext_16(imm)`; else only `pc` moves. -/
def execAssert (rs : RegIx) (imm : BitVec 16) (s : State) : Host.Outcome State Fault Refusal :=
  if samePattern (s.now.readX rs) (immSigned imm) then s.retire .assert s.now.fallThrough
  else s.haltWith .assertionFailed

/-- IN (R151): `x[rd] <- zext_8(b)` of the byte popped from the stream (R152), or the halt InputExhausted where there is
none. The field and the extension are the spec's decision D16 (log 18, UNVERIFIED). -/
def execCharIn (rd : RegIx) (s : State) : Host.Outcome State Fault Refusal :=
  match inputPop s.input with
  | some (b, rest) => (s.setInput rest).retire .charIn (s.now.fallThrough.writeX rd (byteToWord b))
  | none => s.haltWith .inputExhausted

end Sys2Proof.Machine
end

