-- ==== Sys2Proof/Machine/Dispatch.lean ====
section
/-! DEFINITION. The dispatch table (40_codec_decoders.md R99): one meaning per instruction, each the fresh execution of
that instruction at the current state (47_control_loop.md R184). -/

namespace Sys2Proof.Machine

def exec (i : Instr) (s : State) : Host.Outcome State Fault Refusal :=
  match i with
  | .j addr => Sys2Proof.Machine.execJ addr s
  | .beq rs rt imm => Sys2Proof.Machine.execBeq rs rt imm s
  | .addi rs rt imm => Sys2Proof.Machine.execAddi rs rt imm s
  | .lui rt imm => Sys2Proof.Machine.execLui rt imm s
  | .mult rs rt => Sys2Proof.Machine.execMult rs rt s
  | .lw rs rt imm => Sys2Proof.Machine.execLw rs rt imm s
  | .swo rs rt rd => Sys2Proof.Machine.execSwo rs rt rd s
  | .fsub rs rt rd => Sys2Proof.Machine.execFsub rs rt rd s
  | .fabs rs rd => Sys2Proof.Machine.execFabs rs rd s
  | .ftoi rs rd => Sys2Proof.Machine.execFtoi rs rd s
  | .assert rs imm => Sys2Proof.Machine.execAssert rs imm s
  | .charIn rd => Sys2Proof.Machine.execCharIn rd s

end Sys2Proof.Machine
end

