-- ==== Sys2Proof/Machine/Control.lean ====
section
/-! DEFINITION. The control loop (47_control_loop.md): one iteration, what happens at an instruction boundary of a free
run, and the host's commands. -/

namespace Sys2Proof.Machine

/-- A replayed iteration (R185): where a later entry exists, `advance`, and the instruction is counted; its semantic
function is not evaluated (log 34, UNVERIFIED). Nothing at the tail. -/
def replay (op : Opcode) (s : State) : Option State :=
  match s.advance with
  | some t => some (t.countOne op)
  | none => none

/-- `iterate()` (R181): fetch (R182), opcode lookup (R183), then replay where a later entry exists (R185) and fresh
execution at the tail (R184). The checks stand in the order of R206. -/
def iterate (s : State) : Host.Outcome State Fault Refusal :=
  match s.fetch with
  | none => s.haltWith .programCounterOutOfRange
  | some w =>
    match decode s.setup.opcodes w with
    | .unknownOpcode _ => s.haltWith .unknownOpcode
    | .instr i =>
      match replay i.opcode s with
      | some t => .next t
      | none => exec i s

/-- The boundary after an iteration of a free run (R187): a halt stops it; else a breakpoint at the new `pc` does (R186);
else a PAUSE that has arrived does. A `none` in the schedule says that nothing arrives at this boundary; any other command
waits, since only PAUSE is accepted while running (R180; log 6, DESIGN CHOICE). -/
def boundary (s : State) : State :=
  if s.halt.isSome then { s with running := false }
  else if s.bp.contains s.now.pc then { s with running := false }
  else
    match s.arrivals with
    | some .pause :: rest => { s with running := false, arrivals := rest }
    | none :: rest => { s with arrivals := rest }
    | _ => s

/-- One iteration of a free run and the boundary after it (R187). -/
def freeRunStep (s : State) : Host.Outcome State Fault Refusal :=
  match iterate s with
  | .next t => .next (boundary t)
  | .fault r => .fault r
  | .refused r => .refused r

/-- `RUN` (R187, R189): while halted the full reset, which does not start running; else the free run begins. Its
iterations are the steps that follow (log 6, DESIGN CHOICE). -/
def runCommand (s : State) : State :=
  if s.halt.isSome then s.fullReset else { s with running := true }

/-- `STEP` (R188, R191): one iteration, with no breakpoint check; while halted, nothing (log 20, UNVERIFIED). -/
def stepCommand (s : State) : Host.Outcome State Fault Refusal :=
  if s.halt.isSome then .next s else iterate s

/-- `REWIND` (R190): HALTED_REWIND_STEPS moves while halted, else one; the halt is cleared in every case
(log 20, UNVERIFIED). -/
def rewindCommand (s : State) : State :=
  (State.rewindTimes (if s.halt.isSome then s.setup.haltedRewindSteps else 1) s).clearHalt

/-- A command accepted while not running (R180). PAUSE is not accepted then and changes nothing (D32; log 6, DESIGN CHOICE);
`list-breakpoints` and `help` change nothing (R12). -/
def command (c : Command) (s : State) : Host.Outcome State Fault Refusal :=
  match c with
  | .run => .next (runCommand s)
  | .step => stepCommand s
  | .rewind => .next (rewindCommand s)
  | .setBp a => .next { s with bp := insertBp a s.bp }
  | .clrBp a => .next { s with bp := removeBp a s.bp }
  | .pause => .next s
  | .listBreakpoints => .next s
  | .help => .next s

/-- A step while awaiting a command (R180): the next command of the schedule, if one arrives now; else nothing happens. -/
def awaitStep (s : State) : Host.Outcome State Fault Refusal :=
  match s.arrivals with
  | [] => .next s
  | none :: rest => .next { s with arrivals := rest }
  | some c :: rest => command c { s with arrivals := rest }

/-- One step of the engine: an iteration of the free run, or one command. "While `halt != None` no instruction executes"
(R210), so a halted engine awaits a command whatever `running` says (log 27, DEDUCED). -/
def engineStep (s : State) : Host.Outcome State Fault Refusal :=
  if s.running && s.halt.isNone then freeRunStep s else awaitStep s

end Sys2Proof.Machine
end

