-- ==== Sys2Proof/Machine/Step.lean ====
section
/-! DEFINITION. The step function, and the placing of one instruction where the next step fetches it. -/

namespace Sys2Proof.Machine

/-- One step of the engine (Machine/Control.lean). -/
def step (s : State) : Host.Outcome State Fault Refusal := engineStep s

/-- The state whose very next step fetches and runs the instruction with these bits (log 5, DESIGN CHOICE). -/
def State.withFetchWord (s : State) (nbits w : Nat) : State := s.loadNext (BitVec.ofNat 32 (w % 2 ^ nbits))

end Sys2Proof.Machine
end

