-- ==== Sys2Proof/Safety.lean ====
section
/-! DEFINITION. What the claims are stated in terms of: what a completed instruction does around its own effect, the
invariant of the engine, the base memory of the history (R167), and when one history entry follows from another (R161 H4). -/

namespace Sys2Proof.Machine

/-- A fresh execution of an `op` went from `s` to `t` and continued: what R184, R162, R163 and R193 say of every
instruction, whatever its own effect. The new entry is the tail and the current one, the head was dropped if the capacity
was reached, the instruction was counted once, and nothing of the control state moved. -/
structure Completes (op : Opcode) (s t : State) : Prop where
  /-- The cursor is on the new entry, at the tail (R162). -/
  atTail : t.hist.newer = []
  /-- The entries are the old ones, less the head where they were C or more, and the new one (R162, R163). -/
  entries : t.hist.entries =
    (if s.hist.size < s.setup.capacity then s.hist.entries else s.hist.entries.drop 1) ++ [t.now]
  /-- `count[op]` rose by one and no other counter moved (R193). -/
  counts : ∀ o, t.stats.count o = s.stats.count o + if o = op then 1 else 0
  /-- `total` rose by one (R193). -/
  total : t.stats.total = s.stats.total + 1
  setup : t.setup = s.setup
  bp : t.bp = s.bp
  arrivals : t.arrivals = s.arrivals
  running : t.running = s.running
  halt : t.halt = s.halt

/-- Every general register but the named one holds in `t`'s current state what it held in `s`'s. -/
def sameXBut (d : Option RegIx) (s t : State) : Prop := ∀ r, d ≠ some r → t.now.readX r = s.now.readX r

/-- Every float register but the named one holds in `t`'s current state what it held in `s`'s. -/
def sameFBut (d : Option RegIx) (s t : State) : Prop := ∀ r, d ≠ some r → t.now.readF r = s.now.readF r

/-- `hi` and `lo` hold what they held. -/
def sameHiLo (s t : State) : Prop := t.now.hi = s.now.hi ∧ t.now.lo = s.now.lo

/-- Data memory and the input stream are as they were. -/
def sameMemIn (s t : State) : Prop := t.mem = s.mem ∧ t.input = s.input

/-- The word index an instruction stores to from a state, if it stores (R132): the same operand and address forms that
its meaning uses, on the state its meaning starts from. -/
def storeIndex (i : Instr) (s : State) : Option Nat :=
  match i with
  | .swo _ rt rd => some (wordIndex (eaIndexed (s.now.readX rt) (s.now.readX rd)))
  | .j _ => none
  | .beq _ _ _ => none
  | .addi _ _ _ => none
  | .lui _ _ => none
  | .mult _ _ => none
  | .lw _ _ _ => none
  | .fsub _ _ _ => none
  | .fabs _ _ => none
  | .ftoi _ _ => none
  | .assert _ _ => none
  | .charIn _ => none

/-- The bits of a word that an opcode's instruction depends on (R77): the opcode's and those of the fields it reads. -/
def readMask : Opcode → Word
  | .j => 0xFFFFFFFF
  | .beq => 0xFFFFFFFF
  | .addi => 0xFFFFFFFF
  | .lui => 0xFC1FFFFF
  | .mult => 0xFFFF0000
  | .lw => 0xFFFFFFFF
  | .swo => 0xFFFFF800
  | .fsub => 0xFFFFF800
  | .fabs => 0xFFE0F800
  | .ftoi => 0xFFE0F800
  | .assert => 0xFFE0FFFF
  | .charIn => 0xFC00F800

/-- The twelve counters together (R35). -/
def Stats.sum (c : Stats) : Nat := (Opcode.all.map c.count).sum

/-- The breakpoint list is strictly rising: equal sets are equal lists. -/
def risingBp (l : List Word) : Prop := l.Pairwise fun a b => a.toNat < b.toNat

/-- Going back from entry `e`, with memory `m` belonging to it, over the older entries: each patch met on the way, but the
head's, lies in data memory, and memory holds the word it wrote (R167, R26). -/
def PatchesBack (words : Nat) : Memory → Snapshot → List Snapshot → Prop
  | _, _, [] => True
  | m, e, p :: rest =>
    (∀ q, e.patch = some q → q.idx < words ∧ m.readWord q.idx = q.new) ∧
      PatchesBack words (undoPatch e.patch m) p rest

/-- Going forward from an entry with memory `m` over the newer entries: each patch met lies in data memory, and memory holds
the word it replaced (R167: "`hist[k].patch.prior` equals the content of word `idx`"). -/
def PatchesForward (words : Nat) : Memory → List Snapshot → Prop
  | _, [] => True
  | m, e :: rest =>
    (∀ q, e.patch = some q → q.idx < words ∧ m.readWord q.idx = q.prior) ∧
      PatchesForward words (redoPatch e.patch m) rest

/-- The invariant of the engine. It holds after construction with a legal setup, and every step keeps it. -/
structure State.Inv (s : State) : Prop where
  /-- The configuration is legal (R7). -/
  setup : s.setup.wf = true
  /-- Memory is in canonical form. -/
  memWf : s.mem.wf = true
  /-- Memory lists no cell outside the data space (R58). -/
  memWithin : s.mem.within s.setup.memWords = true
  /-- At most C entries exist (R31, R161 H1). -/
  bound : s.hist.size ≤ s.setup.capacity
  /-- `halt != None` implies `running = 0` (R33). -/
  haltStops : s.halt.isSome = true → s.running = false
  /-- `total` is the sum of the counters (R35). -/
  totalIsSum : s.stats.total = s.stats.sum
  /-- The breakpoint list is canonical. -/
  bpRising : risingBp s.bp
  /-- Every retained `pc` is a multiple of 4 (R23). -/
  aligned : ∀ e ∈ s.hist.entries, e.pc.toNat % 4 = 0
  /-- Memory agrees with the patches back to the head (R167). -/
  back : PatchesBack s.setup.memWords s.mem s.hist.now s.hist.older
  /-- Memory agrees with the patches forward to the tail (R167). -/
  forward : PatchesForward s.setup.memWords s.mem s.hist.newer

/-- Memory with every patch from entry `e` back to the head, but the head's, undone. -/
def undoAll : Memory → Snapshot → List Snapshot → Memory
  | m, _, [] => m
  | m, e, p :: rest => undoAll (undoPatch e.patch m) p rest

/-- Memory with the patches of some entries applied in order (R167: "each sets `mem[idx] <- new`"). -/
def redoAll (m : Memory) (es : List Snapshot) : Memory := es.foldl (fun m e => redoPatch e.patch m) m

/-- The base memory `B` of R167, computed: memory as it was at the head of the retained window. -/
def State.base (s : State) : Memory := undoAll s.mem s.hist.now s.hist.older

/-- An engine of this setup on snapshot `a` alone, with memory `m` and a stream: what a fresh execution from `a` sees. -/
def freshAt (c : Setup) (m : Memory) (a : Snapshot) (input : Option (List Byte)) : State :=
  { State.construct c input with hist := ⟨[], a, []⟩, mem := m }

/-- Snapshot `b` with memory `m'` is the `Continue` result of executing the instruction `CODE[a.pc / 4]` from snapshot
`a` with memory `m`, for some input stream (R161 H4). -/
def Follows (c : Setup) (m : Memory) (a b : Snapshot) (m' : Memory) : Prop :=
  ∃ w i input t, c.code[wordIndex a.pc]? = some w ∧ decode c.opcodes w = .instr i ∧
    exec i (freshAt c m a input) = .next t ∧ t.hist = ⟨[a], b, []⟩ ∧ t.mem = m'

/-- Going back from `e`: each entry follows from the one before it (R161 H4). -/
def LinkedBack (c : Setup) : Memory → Snapshot → List Snapshot → Prop
  | _, _, [] => True
  | m, e, p :: rest =>
    Follows c (undoPatch e.patch m) p e m ∧ LinkedBack c (undoPatch e.patch m) p rest

/-- Going forward from `e`: each entry follows from the one before it (R161 H4). -/
def LinkedForward (c : Setup) : Memory → Snapshot → List Snapshot → Prop
  | _, _, [] => True
  | m, e, q :: rest => Follows c m e q (redoPatch q.patch m) ∧ LinkedForward c (redoPatch q.patch m) q rest

/-- R161 H4 for the whole retained window. -/
def State.Linked (s : State) : Prop :=
  LinkedBack s.setup s.mem s.hist.now s.hist.older ∧ LinkedForward s.setup s.mem s.hist.now s.hist.newer

/-- A safe run has not halted: no fatal condition was met (R200). -/
def State.Safe (s : State) : Prop := s.halt = none

end Sys2Proof.Machine
end

