-- ==== Sys2Proof/Certificates/Slice0/Obligations.lean ====
section
/-! DEFINITION. The statements for the provers, each from the rules of spec/ that its docstring names. "Log <n>" is
notes/assumptions/<n>.md. -/

open Sys2Proof Sys2Proof.Machine

/-! The codec, the decoders and the encoding. -/

/-- R90: `extractBits` is the slice of bits `[b, e)` counted from the most significant bit, unsigned, zeros above; the
whole range is the word itself; and the rule's four worked examples. -/
def Obligations.ExtractBitsGivesTheSlice : Prop :=
  (∀ (w : Word) (b e : Nat) (h : b < e ∧ e ≤ 32),
    (extractBits w b e h).toNat = w.toNat / 2 ^ (32 - e) % 2 ^ (e - b) ∧
    (extractBits w b e h).toNat ≤ 2 ^ (e - b) - 1 ∧
    (∀ i, i < e - b → (extractBits w b e h).getLsbD i = w.getMsbD (e - 1 - i))) ∧
  (∀ w : Word, extractBits w 0 32 ⟨by decide, by decide⟩ = w) ∧
  extractBits 0x20220003 0 6 ⟨by decide, by decide⟩ = 8 ∧ extractBits 0x20220003 6 11 ⟨by decide, by decide⟩ = 1 ∧
  extractBits 0x20220003 11 16 ⟨by decide, by decide⟩ = 2 ∧ extractBits 0x20220003 16 32 ⟨by decide, by decide⟩ = 3

/-- R92: `signExtend` reads the low `n` bits as a two's-complement number; bits above are ignored and the sign fills the
word; and the rule's four worked examples. -/
def Obligations.SignExtendIsTwosComplement : Prop :=
  (∀ (value : Word) (n : Nat) (h : 1 ≤ n ∧ n ≤ 32),
    (signExtend value n h).toInt =
      (if value.toNat % 2 ^ n < 2 ^ (n - 1) then ((value.toNat % 2 ^ n : Nat) : Int)
        else ((value.toNat % 2 ^ n : Nat) : Int) - 2 ^ n) ∧
    (∀ i, i < 32 → (signExtend value n h).getLsbD i = value.getLsbD (min i (n - 1)))) ∧
  signExtend 0x0003 16 ⟨by decide, by decide⟩ = 0x00000003 ∧ signExtend 0x7FFF 16 ⟨by decide, by decide⟩ = 0x00007FFF ∧
  signExtend 0x8000 16 ⟨by decide, by decide⟩ = 0xFFFF8000 ∧ signExtend 0xFFFF 16 ⟨by decide, by decide⟩ = 0xFFFFFFFF

/-- R94, R95, R96, R98 with the layout of R72 to R75 (the spec's decision D1, log 12): each decoder reads its fields at
their places, for every word. -/
def Obligations.DecodersReadTheirFields : Prop :=
  ∀ w : Word,
    decodeR w = ⟨w.extractLsb' 21 5, w.extractLsb' 16 5, w.extractLsb' 11 5, w.extractLsb' 6 5, w.extractLsb' 0 6⟩ ∧
    decodeI w = ⟨w.extractLsb' 21 5, w.extractLsb' 16 5, w.extractLsb' 0 16⟩ ∧
    decodeJ w = ⟨w.extractLsb' 0 26⟩ ∧
    opcodeBits w = w.extractLsb' 26 6

/-- R97 f, with the layout of D1 (log 12): the fields of each format tile the word, so a word is rebuilt from its opcode
and its operand record, and an operand record is read back from its word. -/
def Obligations.FieldsTileTheWord : Prop :=
  (∀ w : Word, encodeR (opcodeBits w) (decodeR w) = w ∧ encodeI (opcodeBits w) (decodeI w) = w ∧
    encodeJ (opcodeBits w) (decodeJ w) = w) ∧
  (∀ (op : BitVec 6) (o : OperandR), decodeR (encodeR op o) = o) ∧
  (∀ (op : BitVec 6) (o : OperandI), decodeI (encodeI op o) = o) ∧
  (∀ (op : BitVec 6) (o : OperandJ), decodeJ (encodeJ op o) = o)

/-- R79, R99: under every injective opcode map, decoding the encoding of any instruction gives that instruction back. -/
def Obligations.DecodeInvertsEncode : Prop :=
  ∀ m : OpcodeMap, m.injective = true → ∀ i : Instr, decode m (encode m i) = .instr i

/-- R77, R78: a word's instruction is its opcode's, and depends on the bits its opcode reads alone: re-encoding clears the
ignored fields and keeps every other bit, and every word with the same read bits is the same instruction. -/
def Obligations.IgnoredFieldsDoNotMatter : Prop :=
  ∀ (m : OpcodeMap) (w : Word) (i : Instr), decode m w = .instr i →
    encode m i = w &&& readMask i.opcode ∧
    ∀ w' : Word, w' &&& readMask i.opcode = w &&& readMask i.opcode → decode m w' = .instr i

/-- R80, R99: under every map a word is rejected exactly where no instruction has its opcode value; with the default map
(the spec's decision D2, log 11) those are all but the twelve values. -/
def Obligations.UnknownOpcodesAreTheRest : Prop :=
  (∀ (m : OpcodeMap) (w : Word) (bits : BitVec 6),
    decode m w = .unknownOpcode bits ↔ bits = opcodeBits w ∧ ∀ op : Opcode, m.code op ≠ opcodeBits w) ∧
  (∀ w : Word, (∃ bits, decode Config.opcodes w = .unknownOpcode bits) ↔
    w.toNat / 2 ^ 26 ∉ [2, 4, 8, 15, 24, 35, 47, 49, 50, 51, 62, 63])

/-- 95_test_vectors.md, with the default map and layout (logs 11, 12): one word of every instruction, as the spec writes
it out, decodes to that instruction, and two words of unknown opcodes decode to none. -/
def Obligations.SpecWordsDecode : Prop :=
  decodeTableWord 32 0x0BFFFFFF = some (.j 0x3FFFFFF) ∧ decodeTableWord 32 0x1022FFFE = some (.beq 1 2 0xFFFE) ∧
  decodeTableWord 32 0x20220003 = some (.addi 1 2 3) ∧ decodeTableWord 32 0x3C031234 = some (.lui 3 0x1234) ∧
  decodeTableWord 32 0x60220000 = some (.mult 1 2) ∧ decodeTableWord 32 0x8C04000C = some (.lw 0 4 12) ∧
  decodeTableWord 32 0xBC221800 = some (.swo 1 2 3) ∧ decodeTableWord 32 0xC4221800 = some (.fsub 1 2 3) ∧
  decodeTableWord 32 0xC8201000 = some (.fabs 1 2) ∧ decodeTableWord 32 0xCC201000 = some (.ftoi 1 2) ∧
  decodeTableWord 32 0xF8600007 = some (.assert 3 7) ∧ decodeTableWord 32 0xFC000800 = some (.charIn 1) ∧
  decodeTableWord 32 0x00000000 = none ∧ decodeTableWord 32 0x04000000 = none

/-! What each instruction does where it completes. -/

/-- R110 (effect; its opcode value is log 11's): ADDI writes `x[rs] + sext_16(imm)` modulo 2^32 to `x[rt]`, register 0 like
any other (R22), goes on at `pc + 4`, and touches nothing else; it completes from every state at the tail. -/
def Obligations.AddiAddsTheImmediate : Prop :=
  ∀ (s : State) (rs rt : RegIx) (imm : BitVec 16), s.hist.newer = [] →
    ∃ t, exec (.addi rs rt imm) s = .next t ∧ Completes .addi s t ∧
      t.now.readX rt = s.now.readX rs + imm.signExtend 32 ∧
      sameXBut (some rt) s t ∧ sameFBut none s t ∧ sameHiLo s t ∧ sameMemIn s t ∧
      t.now.pc = s.now.pc + 4 ∧ t.now.patch = none

/-- R111 (effect): LUI writes the immediate to the high half of `x[rt]` and zeros to the low half, and goes on at `pc + 4`. -/
def Obligations.LuiLoadsTheUpperHalf : Prop :=
  ∀ (s : State) (rt : RegIx) (imm : BitVec 16), s.hist.newer = [] →
    ∃ t, exec (.lui rt imm) s = .next t ∧ Completes .lui s t ∧
      t.now.readX rt = imm.setWidth 32 <<< 16 ∧
      sameXBut (some rt) s t ∧ sameFBut none s t ∧ sameHiLo s t ∧ sameMemIn s t ∧
      t.now.pc = s.now.pc + 4 ∧ t.now.patch = none

/-- R112 (effect): MULT writes the exact signed 64-bit product, its high half to `hi` and its low half to `lo`; no general
register is written. -/
def Obligations.MultGivesTheSignedProduct : Prop :=
  ∀ (s : State) (rs rt : RegIx), s.hist.newer = [] →
    ∃ t, exec (.mult rs rt) s = .next t ∧ Completes .mult s t ∧
      (t.now.hi ++ t.now.lo).toInt = (s.now.readX rs).toInt * (s.now.readX rt).toInt ∧
      sameXBut none s t ∧ sameFBut none s t ∧ sameMemIn s t ∧
      t.now.pc = s.now.pc + 4 ∧ t.now.patch = none

/-- R120 (effect): BEQ goes to its own address plus four times the signed offset, modulo 2^32, where the two registers hold
the same pattern, and to `pc + 4` where they do not; it has no other effect. -/
def Obligations.BeqBranchesOnEqualPatterns : Prop :=
  ∀ (s : State) (rs rt : RegIx) (imm : BitVec 16), s.hist.newer = [] →
    ∃ t, exec (.beq rs rt imm) s = .next t ∧ Completes .beq s t ∧
      t.now.pc = (if s.now.readX rs = s.now.readX rt then s.now.pc + BitVec.ofInt 32 (4 * imm.toInt) else s.now.pc + 4) ∧
      sameXBut none s t ∧ sameFBut none s t ∧ sameHiLo s t ∧ sameMemIn s t ∧ t.now.patch = none

/-- R121 (effect): J goes to its own four top address bits, the 26-bit word address and two zero bits; it has no other
effect, no link either. -/
def Obligations.JumpKeepsTheTopFourBits : Prop :=
  ∀ (s : State) (addr : BitVec 26), s.hist.newer = [] →
    ∃ t, exec (.j addr) s = .next t ∧ Completes .j s t ∧
      t.now.pc = s.now.pc.extractLsb' 28 4 ++ addr ++ 0#2 ∧
      sameXBut none s t ∧ sameFBut none s t ∧ sameHiLo s t ∧ sameMemIn s t ∧ t.now.patch = none

/-- R131 (effect), with the address arithmetic of R130 (D8, log 17): where the word index of `x[rs] + sext_16(imm)` is below
MEM_WORDS, LW loads that word, the two low address bits dropped. -/
def Obligations.LwLoadsTheWord : Prop :=
  ∀ (s : State) (rs rt : RegIx) (imm : BitVec 16), s.hist.newer = [] →
    (s.now.readX rs + imm.signExtend 32).toNat / 4 < s.setup.memWords →
    ∃ t, exec (.lw rs rt imm) s = .next t ∧ Completes .lw s t ∧
      t.now.readX rt = s.mem.readWord ((s.now.readX rs + imm.signExtend 32).toNat / 4) ∧
      sameXBut (some rt) s t ∧ sameFBut none s t ∧ sameHiLo s t ∧ sameMemIn s t ∧
      t.now.pc = s.now.pc + 4 ∧ t.now.patch = none

/-- R132, R54 (effect), with the address arithmetic of R130 (D8, log 17) and the patch of D9: where the word index of
`x[rt] + x[rd]` is below MEM_WORDS, SWO stores `x[rs]` there, leaves every other word and every byte outside the four alone,
and records the word index, the old word and the new one. Memory must be in canonical form, as `State.Inv` says it is. -/
def Obligations.SwoStoresTheWord : Prop :=
  ∀ (s : State) (rs rt rd : RegIx), s.hist.newer = [] → s.mem.wf = true →
    (s.now.readX rt + s.now.readX rd).toNat / 4 < s.setup.memWords →
    ∃ t, exec (.swo rs rt rd) s = .next t ∧ Completes .swo s t ∧
      (∀ j, t.mem.readWord j =
        if j = (s.now.readX rt + s.now.readX rd).toNat / 4 then s.now.readX rs else s.mem.readWord j) ∧
      (∀ a, a / 4 ≠ (s.now.readX rt + s.now.readX rd).toNat / 4 → t.mem.read a = s.mem.read a) ∧
      t.now.patch = some ⟨(s.now.readX rt + s.now.readX rd).toNat / 4,
        s.mem.readWord ((s.now.readX rt + s.now.readX rd).toNat / 4), s.now.readX rs⟩ ∧
      sameXBut none s t ∧ sameFBut none s t ∧ sameHiLo s t ∧ t.input = s.input ∧ t.now.pc = s.now.pc + 4

/-- R142 (effect; the roles of the fields are D13, log 19): FSUB writes the configuration's `fsub32(f[rs], f[rt])` to `f[rd]`,
whichever function that is (R140), and reads or writes no general register. What its intended value is, FsubIsCorrectlyRounded
and FsubSpecialOperands say. -/
def Obligations.FsubWritesTheDifference : Prop :=
  ∀ (s : State) (rs rt rd : RegIx), s.hist.newer = [] →
    ∃ t, exec (.fsub rs rt rd) s = .next t ∧ Completes .fsub s t ∧
      t.now.readF rd = fsub32 s.setup (s.now.readF rs) (s.now.readF rt) ∧
      sameXBut none s t ∧ sameFBut (some rd) s t ∧ sameHiLo s t ∧ sameMemIn s t ∧
      t.now.pc = s.now.pc + 4 ∧ t.now.patch = none

/-- R143 (effect; roles and the bitwise reading are D13, D14, log 19): FABS copies `f[rs]` to `f[rd]` with bit 31 cleared,
for every pattern. -/
def Obligations.FabsClearsTheSign : Prop :=
  ∀ (s : State) (rs rd : RegIx), s.hist.newer = [] →
    ∃ t, exec (.fabs rs rd) s = .next t ∧ Completes .fabs s t ∧
      (t.now.readF rd).getLsbD 31 = false ∧
      (∀ i, i < 31 → (t.now.readF rd).getLsbD i = (s.now.readF rs).getLsbD i) ∧
      sameXBut none s t ∧ sameFBut (some rd) s t ∧ sameHiLo s t ∧ sameMemIn s t ∧
      t.now.pc = s.now.pc + 4 ∧ t.now.patch = none

/-- R144 (effect): FTOI writes the configuration's `ftoi32(f[rs])` to `x[rd]`, for every operand, and changes no float register. What `ftoi32`
is, FtoiTruncatesTowardZero says. -/
def Obligations.FtoiWritesTheTruncation : Prop :=
  ∀ (s : State) (rs rd : RegIx), s.hist.newer = [] →
    ∃ t, exec (.ftoi rs rd) s = .next t ∧ Completes .ftoi s t ∧
      t.now.readX rd = ftoi32 s.setup (s.now.readF rs) ∧
      sameXBut (some rd) s t ∧ sameFBut none s t ∧ sameHiLo s t ∧ sameMemIn s t ∧
      t.now.pc = s.now.pc + 4 ∧ t.now.patch = none

/-- R150 (effect where it holds): where `x[rs]` is the sign-extended immediate's pattern, ASSERT changes nothing but `pc`. -/
def Obligations.AssertPassesOnEquality : Prop :=
  ∀ (s : State) (rs : RegIx) (imm : BitVec 16), s.hist.newer = [] → s.now.readX rs = imm.signExtend 32 →
    ∃ t, exec (.assert rs imm) s = .next t ∧ Completes .assert s t ∧
      sameXBut none s t ∧ sameFBut none s t ∧ sameHiLo s t ∧ sameMemIn s t ∧
      t.now.pc = s.now.pc + 4 ∧ t.now.patch = none

/-- R151, R152 (effect; field and extension are D16, log 18): where the stream holds a byte, IN removes it and writes it,
zero-extended, to `x[rd]`. -/
def Obligations.InReadsOneByte : Prop :=
  ∀ (s : State) (rd : RegIx) (b : Byte) (rest : List Byte), s.hist.newer = [] → s.input = some (b :: rest) →
    ∃ t, exec (.charIn rd) s = .next t ∧ Completes .charIn s t ∧
      (t.now.readX rd).toNat = b.toNat ∧ t.input = some rest ∧ t.mem = s.mem ∧
      sameXBut (some rd) s t ∧ sameFBut none s t ∧ sameHiLo s t ∧
      t.now.pc = s.now.pc + 4 ∧ t.now.patch = none

/-! Where an instruction halts, and what every instruction leaves alone. -/

/-- R52, R203, with the address arithmetic of R130 (D8, log 17): where the word index is not below MEM_WORDS, LW and SWO
halt with OutOfRange and change no register and no memory. -/
def Obligations.LoadStoreHaltOutOfRange : Prop :=
  (∀ (s : State) (rs rt : RegIx) (imm : BitVec 16),
    s.setup.memWords ≤ (s.now.readX rs + imm.signExtend 32).toNat / 4 →
    exec (.lw rs rt imm) s = .next { s with halt := some .outOfRange, running := false }) ∧
  (∀ (s : State) (rs rt rd : RegIx),
    s.setup.memWords ≤ (s.now.readX rt + s.now.readX rd).toNat / 4 →
    exec (.swo rs rt rd) s = .next { s with halt := some .outOfRange, running := false })

/-- R204: ASSERT halts with AssertionFailed where the register differs from the sign-extended immediate, and then
nothing else changes. -/
def Obligations.AssertHaltsOnDifference : Prop :=
  ∀ (s : State) (rs : RegIx) (imm : BitVec 16), s.now.readX rs ≠ imm.signExtend 32 →
    exec (.assert rs imm) s = .next { s with halt := some .assertionFailed, running := false }

/-- R205: IN halts with InputExhausted where no byte is left or no stream is configured, and then nothing else changes. -/
def Obligations.InHaltsWithoutInput : Prop :=
  ∀ (s : State) (rd : RegIx), s.input = none ∨ s.input = some [] →
    exec (.charIn rd) s = .next { s with halt := some .inputExhausted, running := false }

/-- R184, R207, R208: every execution of every instruction either continues, with its one new entry and its one count, or
halts with the one reason that instruction can raise (R206), and then nothing but `halt` and `running` changes. -/
def Obligations.EveryExecutionCompletesOrHalts : Prop :=
  ∀ (i : Instr) (s t : State), exec i s = .next t →
    Completes i.opcode s t ∨
    ∃ r, t = { s with halt := some r, running := false } ∧
      ((r = .outOfRange ∧ (i.opcode = .lw ∨ i.opcode = .swo)) ∨ (r = .assertionFailed ∧ i.opcode = .assert) ∨
        (r = .inputExhausted ∧ i.opcode = .charIn))

/-- R11, R21, R24, R25, R101: the frame of all twelve instructions. Wherever `exec` answers a next state: every general and
float register but the instruction's destination holds what it held; `hi` and `lo` change by MULT alone; every byte of
memory outside the word SWO stores to, at the index its operands give, reads as before; the stream changes by IN alone; the
configuration, the breakpoints and the host's schedule stay. -/
def Obligations.InstructionFrame : Prop :=
  ∀ (i : Instr) (s t : State), s.mem.wf = true → exec i s = .next t →
    sameXBut i.destX s t ∧ sameFBut i.destF s t ∧ (i.opcode ≠ .mult → sameHiLo s t) ∧
    (∀ a, storeIndex i s ≠ some (a / 4) → t.mem.read a = s.mem.read a) ∧
    (i.opcode ≠ .charIn → t.input = s.input) ∧
    t.setup = s.setup ∧ t.bp = s.bp ∧ t.arrivals = s.arrivals

/-- R101: "Of the twelve: LW reads `mem`; SWO writes `mem`; IN pops `input`; the other nine touch nothing outside the `State`
value": with any other memory and stream the nine do the same to everything else, and leave those as they are. -/
def Obligations.OnlyThreeTouchMemoryOrInput : Prop :=
  (∀ (i : Instr) (s t : State) (m : Memory) (inp : Option (List Byte)),
    i.opcode ∉ [.lw, .swo, .charIn] → exec i s = .next t →
    t.mem = s.mem ∧ t.input = s.input ∧ exec i { s with mem := m, input := inp } = .next { t with mem := m, input := inp }) ∧
  (∀ (i : Instr) (s t : State) (inp : Option (List Byte)),
    i.opcode ≠ .charIn → exec i s = .next t → exec i { s with input := inp } = .next { t with input := inp }) ∧
  (∀ (rd : RegIx) (s t : State) (m : Memory),
    exec (.charIn rd) s = .next t → t.mem = s.mem ∧ exec (.charIn rd) { s with mem := m } = .next { t with mem := m })

/-- U2, R227 (log 14): an instruction always answers a next state, but where it would append with the cursor not at the
tail, which has no meaning: then it is refused. -/
def Obligations.ExecStopsOnlyOffTheTail : Prop :=
  ∀ (i : Instr) (s : State), (∃ t, exec i s = .next t) ∨ (s.hist.newer ≠ [] ∧ exec i s = .refused .appendOffTail)

/-- R53, R59 a (the source's scenario 3): after SWO completes, an LW whose address falls in the same word loads the word
that was stored. -/
def Obligations.StoreThenLoadReadsTheStoredWord : Prop :=
  ∀ (s t : State) (rs rt rd rb rx : RegIx) (imm : BitVec 16), s.mem.wf = true → s.hist.newer = [] →
    (s.now.readX rt + s.now.readX rd).toNat / 4 < s.setup.memWords →
    exec (.swo rs rt rd) s = .next t →
    (t.now.readX rb + imm.signExtend 32).toNat / 4 = (s.now.readX rt + s.now.readX rd).toNat / 4 →
    ∃ u, exec (.lw rb rx imm) t = .next u ∧ u.now.readX rx = s.now.readX rs

/-- R22 (register 0 is plain storage, D4, log 13): its being zero is a property of programs. An instruction that does not
name register 0 as its destination leaves it as it is. -/
def Obligations.RegisterZeroConvention : Prop :=
  ∀ (i : Instr) (s t : State), i.sparesRegZero = true → exec i s = .next t → t.now.readX 0 = s.now.readX 0

/-! The control loop. -/

/-- R181, R183, R184: at the tail, a word at `pc / 4` of the code image that decodes to an instruction is executed: in a free
run the step is that execution and then the boundary of R187, by `STEP` it is that execution alone. -/
def Obligations.StepRunsTheDecodedInstruction : Prop :=
  ∀ (s : State) (w : Word) (i : Instr),
    s.setup.code[s.now.pc.toNat / 4]? = some w → decode s.setup.opcodes w = .instr i →
    s.halt = none → s.hist.newer = [] →
    (s.running = true → ∀ t, exec i s = .next t → step s = .next (boundary t)) ∧
    (s.running = false → ∀ rest, s.arrivals = some .step :: rest → step s = exec i { s with arrivals := rest })

/-- R186, R187 (the arrival of PAUSE is D26, log 6): the boundary after an iteration of a free run. A halt stops the run; else
a breakpoint at the new `pc` does, without halting; else a PAUSE that has arrived does; else the run goes on, and any other
command waits (R180). -/
def Obligations.BoundaryOfAFreeRun : Prop :=
  ∀ s : State,
    (s.halt ≠ none → boundary s = { s with running := false }) ∧
    (s.halt = none → s.now.pc ∈ s.bp → boundary s = { s with running := false }) ∧
    (s.halt = none → s.now.pc ∉ s.bp → ∀ rest,
      (s.arrivals = some .pause :: rest → boundary s = { s with running := false, arrivals := rest }) ∧
      (s.arrivals = none :: rest → boundary s = { s with arrivals := rest }) ∧
      (∀ c, c ≠ .pause → s.arrivals = some c :: rest → boundary s = s)) ∧
    (s.halt = none → s.now.pc ∉ s.bp → s.arrivals = [] → boundary s = s)

/-- R186: breakpoints are looked at in a free run only, after a step completes, against the `pc` it leaves: a step of a free
run that did not halt pauses, not halted, exactly where the new `pc` is a breakpoint or a PAUSE has arrived, whatever the
`pc` it started from. -/
def Obligations.BreakpointPausesAfterTheStep : Prop :=
  ∀ s t : State, s.running = true → s.halt = none → step s = .next t → t.halt = none →
    (t.running = false ↔ t.now.pc ∈ s.bp ∨ s.arrivals.head? = some (some .pause)) ∧
    ∃ u, iterate s = .next u ∧ t.hist = u.hist ∧ t.mem = u.mem ∧ t.input = u.input ∧ t.stats = u.stats ∧ t.bp = s.bp

/-- R182, R202: fetch takes the word at `pc / 4` of CODE verbatim, an index below 2^30, and looks at nothing else; where that
index is not below CODE_WORDS the engine halts with ProgramCounterOutOfRange and nothing else changes. -/
def Obligations.FetchOutsideTheImageHalts : Prop :=
  (∀ s : State, s.fetch = s.setup.code[s.now.pc.toNat / 4]? ∧ s.now.pc.toNat / 4 < 2 ^ 30) ∧
  (∀ s : State, s.setup.code.length ≤ s.now.pc.toNat / 4 → s.halt = none →
    (s.running = true → step s = .next { s with halt := some .programCounterOutOfRange, running := false }) ∧
    (s.running = false → ∀ rest, s.arrivals = some .step :: rest →
      step s = .next { s with arrivals := rest, halt := some .programCounterOutOfRange, running := false }))

/-- R201: a fetched word whose top six bits are no instruction's opcode value, whatever its other bits, halts the engine with
UnknownOpcode; nothing is counted and nothing else changes. -/
def Obligations.UnknownOpcodeHalts : Prop :=
  ∀ (s : State) (w : Word),
    s.setup.code[s.now.pc.toNat / 4]? = some w → (∀ op : Opcode, s.setup.opcodes.code op ≠ w.extractLsb' 26 6) →
    s.halt = none →
    (s.running = true → step s = .next { s with halt := some .unknownOpcode, running := false }) ∧
    (s.running = false → ∀ rest, s.arrivals = some .step :: rest →
      step s = .next { s with arrivals := rest, halt := some .unknownOpcode, running := false })

/-- R185 (the spec's decision D18): where a later entry exists, an iteration takes it: the cursor moves one later, the entry's
store is redone, the instruction is counted, and neither the stream nor the entries change. -/
def Obligations.ReplayTakesTheStoredEntry : Prop :=
  ∀ (s : State) (w : Word) (i : Instr) (e : Snapshot) (rest : List Snapshot),
    s.setup.code[s.now.pc.toNat / 4]? = some w → decode s.setup.opcodes w = .instr i → s.hist.newer = e :: rest →
    ∃ t, iterate s = .next t ∧ t.now = e ∧ t.hist.entries = s.hist.entries ∧ t.hist.cursor = s.hist.cursor + 1 ∧
      (e.patch = none → t.mem = s.mem) ∧ (∀ q, e.patch = some q → t.mem = s.mem.writeWord q.idx q.new) ∧
      t.input = s.input ∧ (∀ o, t.stats.count o = s.stats.count o + if o = i.opcode then 1 else 0) ∧
      t.stats.total = s.stats.total + 1 ∧ t.halt = s.halt ∧ t.running = s.running ∧ t.bp = s.bp ∧ t.setup = s.setup

/-- R187, R189, R222 (D20, D22: what the reset restores and that it does not run are the spec's decisions, log 20): `RUN` starts
the free run where the engine is not halted, and otherwise leaves it as construction does, but for the breakpoints, the
stream and the schedule, which stay. -/
def Obligations.RunStartsOrResets : Prop :=
  ∀ (s : State) (rest : List (Option Command)), s.running = false → s.arrivals = some .run :: rest →
    (s.halt = none → step s = .next { s with running := true, arrivals := rest }) ∧
    (s.halt ≠ none →
      step s = .next { State.construct s.setup s.input with bp := s.bp, arrivals := rest })

/-- R188: a STEP while not halted is exactly one iteration, whatever the breakpoints, and the engine awaits a command after
it. -/
def Obligations.StepCommandIsOneIteration : Prop :=
  ∀ (s : State) (rest : List (Option Command)), s.running = false → s.halt = none → s.arrivals = some .step :: rest →
    ∃ t, step s = .next t ∧ iterate { s with arrivals := rest } = .next t ∧ t.running = false ∧ t.arrivals = rest ∧
      ∀ bp, step { s with bp := bp } = .next { t with bp := bp }

/-- R190 (D21: the count while halted is HALTED_REWIND_STEPS): REWIND moves the cursor back by one entry, or by
HALTED_REWIND_STEPS while halted, as far as the head; undoes the store of each entry it leaves, newest first; clears the halt
in every case; and leaves the entries, the statistics, the stream and the breakpoints alone. -/
def Obligations.RewindCommandMovesBack : Prop :=
  ∀ (s : State) (rest : List (Option Command)) (k : Nat), s.running = false → s.arrivals = some .rewind :: rest →
    k = (if s.halt = none then 1 else s.setup.haltedRewindSteps) →
    ∃ t, step s = .next t ∧ t.hist.entries = s.hist.entries ∧ t.hist.cursor = s.hist.cursor - k ∧
      t.mem = ((s.now :: s.hist.older).take (min k s.hist.cursor)).foldl (fun m e => undoPatch e.patch m) s.mem ∧
      t.halt = none ∧ t.running = false ∧ t.stats = s.stats ∧ t.input = s.input ∧ t.bp = s.bp ∧ t.setup = s.setup ∧
      t.arrivals = rest

/-- R192: SET_BP and CLR_BP are set operations on the breakpoints, accepted halted or not, and leave everything else; on a
canonical list, setting what is set and clearing what is not set change nothing. -/
def Obligations.BreakpointCommandsAreSetOperations : Prop :=
  ∀ (s : State) (a : Word) (rest : List (Option Command)), s.running = false →
    (s.arrivals = some (.setBp a) :: rest →
      ∃ bp, step s = .next { s with bp := bp, arrivals := rest } ∧ (∀ b, b ∈ bp ↔ b = a ∨ b ∈ s.bp) ∧
        (risingBp s.bp → risingBp bp ∧ (a ∈ s.bp → bp = s.bp))) ∧
    (s.arrivals = some (.clrBp a) :: rest →
      ∃ bp, step s = .next { s with bp := bp, arrivals := rest } ∧ (∀ b, b ∈ bp ↔ b ≠ a ∧ b ∈ s.bp) ∧
        (risingBp s.bp → risingBp bp) ∧ (a ∉ s.bp → bp = s.bp))

/-- R12, R191 (D23, log 20), R195, R180 and log 6: while a command is awaited, a step with none arriving, PAUSE,
`list-breakpoints`, `help`, and STEP while halted change nothing but the schedule. -/
def Obligations.CommandsThatChangeNothing : Prop :=
  ∀ (s : State) (rest : List (Option Command)), s.running = false →
    (s.arrivals = [] → step s = .next s) ∧
    (∀ c, c ∈ [none, some .pause, some .listBreakpoints, some .help] → s.arrivals = c :: rest →
      step s = .next { s with arrivals := rest }) ∧
    (s.halt ≠ none → s.arrivals = some .step :: rest → step s = .next { s with arrivals := rest })

/-- R207, R209, R210: while halted no instruction executes, no byte is read and no counter rises; the halt stays as it is
but by the host's RUN or REWIND. -/
def Obligations.HaltedEngineExecutesNothing : Prop :=
  ∀ (s t : State) (r : HaltReason), s.halt = some r → step s = .next t →
    t.input = s.input ∧
    (t.stats = s.stats ∨ (t.stats = Stats.zero ∧ s.arrivals.head? = some (some .run))) ∧
    ((t.halt = some r ∧ t.hist = s.hist ∧ t.mem = s.mem) ∨
      (t.halt = none ∧ (s.arrivals.head? = some (some .run) ∨ s.arrivals.head? = some (some .rewind))))

/-- R193: an iteration that does not halt, fresh or replayed, adds one to the counter of the opcode it fetched and one to the
total; one that halts adds nothing; no other step adds anything or takes anything away, but the full reset, which zeroes
all. -/
def Obligations.StatisticsCountIterations : Prop :=
  ∀ s t : State, step s = .next t →
    (t.halt ≠ none → t.stats = s.stats) ∧
    (s.halt = none → t.halt = none → (s.running = true ∨ s.arrivals.head? = some (some .step)) →
      ∃ w i, s.fetch = some w ∧ decode s.setup.opcodes w = .instr i ∧
        (∀ o, t.stats.count o = s.stats.count o + if o = i.opcode then 1 else 0) ∧ t.stats.total = s.stats.total + 1) ∧
    (s.halt = none → s.running = false → s.arrivals.head? ≠ some (some .step) → t.stats = s.stats) ∧
    (s.halt ≠ none → s.arrivals.head? ≠ some (some .run) → t.stats = s.stats) ∧
    (s.halt ≠ none → s.arrivals.head? = some (some .run) → (∀ o, t.stats.count o = 0) ∧ t.stats.total = 0)

/-- R30, R222, R196 b: no step changes the code image or any other part of the configuration. -/
def Obligations.ConfigurationNeverChanges : Prop :=
  ∀ s t : State, step s = .next t → t.setup = s.setup

/-- R183, R227: the control loop checks the bounds before it calls: every step, from every state, answers a next state. No
step faults or is refused. -/
def Obligations.EveryStepAnswersANextState : Prop :=
  ∀ s : State, ∃ t, step s = .next t

/-! The history buffer. -/

/-- R162, R163: `append` puts the entry at the tail, moves the cursor to it, drops the head where more than C entries would
result, and has no meaning (U2) with the cursor not at the tail. -/
def Obligations.AppendAddsTheTailAndEvicts : Prop :=
  ∀ (cap : Nat) (e : Snapshot) (h : History),
    (h.append cap e = none ↔ h.cursor + 1 ≠ h.size) ∧
    ∀ h', h.append cap e = some h' →
      h'.entries = (if h.size + 1 > cap then h.entries.drop 1 else h.entries) ++ [e] ∧
      h'.now = e ∧ h'.cursor + 1 = h'.size ∧ (1 ≤ cap → h.size ≤ cap → h'.size = min (h.size + 1) cap)

/-- R164: `advance` moves the cursor one entry later, redoes that entry's store, and changes nothing else; it has no meaning
(U2) exactly where the cursor is at the tail. -/
def Obligations.AdvanceRedoesTheStore : Prop :=
  ∀ s : State,
    (s.advance = none ↔ s.hist.cursor + 1 = s.hist.size) ∧
    ∀ t, s.advance = some t →
      t.hist.entries = s.hist.entries ∧ t.hist.cursor = s.hist.cursor + 1 ∧
      s.hist.entries[s.hist.cursor + 1]? = some t.now ∧
      (t.now.patch = none → t.mem = s.mem) ∧ (∀ q, t.now.patch = some q → t.mem = s.mem.writeWord q.idx q.new) ∧
      t = { s with hist := t.hist, mem := t.mem }

/-- R165, C4: `rewind` undoes the store of the entry the cursor leaves, moves it one entry earlier, and changes nothing else;
at the head it changes nothing at all. -/
def Obligations.RewindUndoesTheStore : Prop :=
  ∀ s : State,
    (s.hist.cursor = 0 → s.rewind = s) ∧
    (s.hist.cursor ≠ 0 →
      s.rewind.hist.entries = s.hist.entries ∧ s.rewind.hist.cursor + 1 = s.hist.cursor ∧
      (s.now.patch = none → s.rewind.mem = s.mem) ∧
      (∀ q, s.now.patch = some q → s.rewind.mem = s.mem.writeWord q.idx q.prior) ∧
      s.rewind = { s with hist := s.rewind.hist, mem := s.rewind.mem })

/-- R169: executing an instruction and rewinding restores the exact prior snapshot and memory, and not the statistics or the
stream; a rewind and an advance undo each other, in either order, where neither is the no-op case. -/
def Obligations.ExecuteThenRewindRestores : Prop :=
  (∀ (i : Instr) (s t : State), s.mem.wf = true → 2 ≤ s.setup.capacity → exec i s = .next t → Completes i.opcode s t →
    t.rewind.now = s.now ∧ t.rewind.mem = s.mem ∧ t.rewind.stats = t.stats ∧ t.rewind.input = t.input) ∧
  (∀ s : State, s.Inv → s.hist.cursor ≠ 0 → s.rewind.advance = some s) ∧
  (∀ s t : State, s.Inv → s.advance = some t → t.rewind = s)

/-- R170: over any run from a state that meets the invariant the number of retained entries never exceeds C, and at most
C - 1 rewinds in a row have an effect: after them the cursor is at the head and a further one changes nothing. -/
def Obligations.HistoryIsBounded : Prop :=
  (∀ (k : Nat) (s t : State), s.Inv → Sys2Proof.core.run k s = .next t → t.hist.size ≤ s.setup.capacity) ∧
  (∀ (k : Nat) (s : State), s.Inv → s.setup.capacity - 1 ≤ k →
    (s.rewindTimes k).hist.cursor = 0 ∧ (s.rewindTimes k).rewind = s.rewindTimes k)

/-! Reset and the invariants. -/

/-- R38, R221 (the pattern of +0.0, `running`, `halt` and `bp` are the spec's decisions D12, D20, D22): what construction leaves,
for every configuration and stream; memory holds MEM_INIT, whatever it is. -/
def Obligations.ConstructionGivesGenesis : Prop :=
  ∀ (c : Setup) (input : Option (List Byte)),
    let s := State.construct c input
    s.now.pc = 0 ∧ (∀ r, s.now.readX r = 0) ∧ (∀ r, s.now.readF r = 0) ∧ s.now.hi = 0 ∧ s.now.lo = 0 ∧
    s.now.patch = none ∧ s.hist.entries = [s.now] ∧ s.hist.cursor = 0 ∧ s.hist.size = 1 ∧
    (∀ idx, s.mem.readWord idx = c.memInit.readWord idx) ∧ s.running = false ∧ s.halt = none ∧ s.bp = [] ∧
    (∀ o, s.stats.count o = 0) ∧ s.stats.total = 0 ∧ s.input = input ∧ s.setup = c

/-- The invariant holds after construction with every legal configuration (R7) and stream, and so at reset. -/
def Obligations.InvariantHoldsAtConstruction : Prop :=
  (∀ (c : Setup) (input : Option (List Byte)), c.wf = true → (State.construct c input).Inv) ∧ State.reset.Inv

/-- R161 H1, R167, R33, R35, R23, R58: every step keeps the invariant `State.Inv`: memory canonical and inside the data space,
at most C entries, a halted engine not running, the total the counters' sum, every `pc` a multiple of 4, and memory in
agreement with the patches of the whole window. -/
def Obligations.InvariantKeptByEveryStep : Prop :=
  ∀ s t : State, s.Inv → step s = .next t → t.Inv

/-- R167: memory is the base memory with the patches of `hist[1]` to `hist[cur]` applied in that order. -/
def Obligations.MemoryIsBasePlusPatches : Prop :=
  ∀ s : State, s.Inv → s.mem = redoAll s.base ((s.hist.entries.take (s.hist.cursor + 1)).drop 1)

/-- R167, R163, R171: how the base memory and the entries move. It is MEM_INIT at construction; and a step either keeps the
entries and the base, or adds an entry and keeps the base, or adds one at capacity and drops the head, taking the new head's
patch into the base, or resets to genesis and MEM_INIT. -/
def Obligations.BaseMemoryMovesWithTheHead : Prop :=
  (∀ (c : Setup) (input : Option (List Byte)), (State.construct c input).base = c.memInit) ∧
  (∀ s t : State, s.Inv → step s = .next t →
    (t.hist.entries = s.hist.entries ∧ t.base = s.base) ∨
    (∃ e, t.hist.entries = s.hist.entries ++ [e] ∧ t.base = s.base) ∨
    (∃ e g, s.hist.size = s.setup.capacity ∧ s.hist.entries[1]? = some g ∧
      t.hist.entries = s.hist.entries.drop 1 ++ [e] ∧ t.base = redoPatch g.patch s.base) ∨
    (s.halt ≠ none ∧ t.hist.entries = [Snapshot.genesis] ∧ t.base = s.setup.memInit))

/-- R161 H4: every retained entry but the head is the `Continue` result of executing the instruction at the `pc` of the entry
before it, on the memory that belongs to that entry. It holds at construction and every step keeps it. -/
def Obligations.EntriesFollowFromTheirPredecessors : Prop :=
  (∀ (c : Setup) (input : Option (List Byte)), (State.construct c input).Linked) ∧
  (∀ s t : State, s.Inv → s.Linked → step s = .next t → t.Linked)

/-- R171, R185: for every instruction but IN, replaying the stored entry gives the snapshot and the memory that executing the
instruction afresh from the same state would give, and counts the same. -/
def Obligations.ReplayEqualsReexecution : Prop :=
  ∀ (s : State) (w : Word) (i : Instr), s.Inv → s.Linked → s.hist.newer ≠ [] →
    s.setup.code[s.now.pc.toNat / 4]? = some w → decode s.setup.opcodes w = .instr i → i.opcode ≠ .charIn →
    ∃ t u, iterate s = .next t ∧ exec i { s with hist := { s.hist with newer := [] } } = .next u ∧
      t.now = u.now ∧ t.mem = u.mem ∧ t.stats = u.stats ∧ t.input = u.input

/-- R25, R147: from construction every float register holds +0.0 forever: every entry of the window has all its float
registers zero, at construction and after every step from a state where they are. The configuration's `fsub32` must give +0.0 for
+0.0 minus +0.0, as R140 intends (D12, log 7). -/
def Obligations.FloatRegistersStayZero : Prop :=
  (∀ (c : Setup) (input : Option (List Byte)), ∀ e ∈ (State.construct c input).hist.entries, ∀ r, e.readF r = 0) ∧
  (∀ s t : State, fsub32 s.setup 0 0 = 0 → (∀ e ∈ s.hist.entries, ∀ r, e.readF r = 0) → step s = .next t →
    ∀ e ∈ t.hist.entries, ∀ r, e.readF r = 0)

/-! The binary32 numerics. -/

/-- R140 (the spec's intended value, D12, log 7): where the configuration lists nothing of its own for two finite operands
(log 36), their difference is correctly rounded. It is finite exactly where the exact difference is below the overflow
threshold; then no finite pattern is closer to the exact difference, and of two equally close ones it is the even one; else it
is the infinity of the difference's sign. -/
def Obligations.FsubIsCorrectlyRounded : Prop :=
  ∀ (cf : Setup) (a b : Word), fsubListed cf a b = none → F32.isFinite a = true → F32.isFinite b = true →
    (F32.isFinite (fsub32 cf a b) = true ↔ (F32.value a - F32.value b).natAbs < (2 ^ 25 - 1) * 2 ^ 252) ∧
    (F32.isFinite (fsub32 cf a b) = false →
      fsub32 cf a b = F32.infinity (if F32.value a - F32.value b < 0 then 1 else 0)) ∧
    (F32.isFinite (fsub32 cf a b) = true → ∀ c : Word, F32.isFinite c = true →
      (F32.value (fsub32 cf a b) - (F32.value a - F32.value b)).natAbs ≤ (F32.value c - (F32.value a - F32.value b)).natAbs ∧
      ((F32.value (fsub32 cf a b) - (F32.value a - F32.value b)).natAbs = (F32.value c - (F32.value a - F32.value b)).natAbs →
        F32.value c = F32.value (fsub32 cf a b) ∨ (fsub32 cf a b).getLsbD 0 = false))

/-- R140, U4 (D12, logs 7, 8): FSUB's special operands, where the configuration lists nothing of its own for them
(log 36). A NaN operand, and the difference of two infinities of one sign, give some NaN, whatever the free values are; any
other infinity decides the result; an exact zero is +0.0, but for -0.0 minus +0.0, which is -0.0. -/
def Obligations.FsubSpecialOperands : Prop :=
  ∀ (cf : Setup) (a b : Word), fsubListed cf a b = none →
    (F32.isNaN a = true ∨ F32.isNaN b = true → F32.isNaN (fsub32 cf a b) = true) ∧
    (F32.isInf a = true → F32.isInf b = true → F32.sign a = F32.sign b → F32.isNaN (fsub32 cf a b) = true) ∧
    (F32.isInf a = true → F32.isNaN b = false → ¬ (F32.isInf b = true ∧ F32.sign a = F32.sign b) → fsub32 cf a b = a) ∧
    (F32.isFinite a = true → F32.isInf b = true → fsub32 cf a b = b ^^^ 0x80000000#32) ∧
    (F32.isFinite a = true → F32.isFinite b = true → F32.value a = F32.value b →
      fsub32 cf a b = if a = 0x80000000#32 ∧ b = 0x00000000#32 then 0x80000000#32 else 0x00000000#32)

/-- R141 (D15: to a signed integer, log 10; the values outside are free, logs 9 and 36, and nothing is said of them), for every
configuration: where the truncation of a finite operand has a 32-bit signed pattern, FTOI gives it: the whole number next to
the operand's value on the side of zero. Values are in units of 2^-149. -/
def Obligations.FtoiTruncatesTowardZero : Prop :=
  ∀ (cf : Setup) (a : Word), F32.isFinite a = true →
    -(2 ^ 31 + 1) * 2 ^ 149 < F32.value a → F32.value a < 2 ^ 31 * 2 ^ 149 →
    (0 ≤ F32.value a →
      (ftoi32 cf a).toInt * 2 ^ 149 ≤ F32.value a ∧ F32.value a < ((ftoi32 cf a).toInt + 1) * 2 ^ 149) ∧
    (F32.value a ≤ 0 →
      F32.value a ≤ (ftoi32 cf a).toInt * 2 ^ 149 ∧ ((ftoi32 cf a).toInt - 1) * 2 ^ 149 < F32.value a)
end

