-- ==== Sys2Proof/Laws/Decode.lean ====
section
/-! SUPPORT. The codec bit by bit, and the opcode field of an encoded word. -/

namespace Sys2Proof

/-- Bit `i` of an extracted field is bit `32 - e + i` of the word (R90). -/
theorem extractBits_getLsbD (w : Word) (b e : Nat) (h : b < e ∧ e ≤ 32) (i : Nat) :
    (extractBits w b e h).getLsbD i = (decide (i < e - b) && w.getLsbD (32 - e + i)) := by
  rw [extractBits, BitVec.getLsbD_ofNat, Nat.testBit_mod_two_pow, Nat.testBit_shiftRight]
  by_cases hi : i < e - b
  · simp [hi, show i < 32 by omega, BitVec.getLsbD]
  · simp [hi]

/-- Bit `i` of a field's value. -/
theorem Field.get_getLsbD (f : Field) (w : Word) (i : Nat) :
    (f.get w).getLsbD i = (decide (i < f.stop - f.start) && w.getLsbD (32 - f.stop + i)) :=
  extractBits_getLsbD w _ _ _ i

/-- Bit `i` of a value put at a field's place. -/
theorem Field.put_getLsbD (f : Field) (v : Word) (i : Nat) :
    (f.put v).getLsbD i = (decide (i < 32) && (!decide (i < 32 - f.stop) && v.getLsbD (i - (32 - f.stop)))) := by
  rw [Field.put, BitVec.getLsbD_shiftLeft, Bool.and_assoc]

/-- The opcode field of a word is its top six bits (R71). -/
theorem opcodeBits_getLsbD (w : Word) (i : Nat) : (opcodeBits w).getLsbD i = (decide (i < 6) && w.getLsbD (26 + i)) := by
  rw [opcodeBits, BitVec.getLsbD_setWidth, Field.get_getLsbD]
  by_cases hi : i < 6 <;> simp [hi, Field.stop, Field.start]

/-- An R-format word has the opcode it was made with (R97 f). -/
theorem opcodeBits_encodeR (op : BitVec 6) (o : OperandR) : opcodeBits (encodeR op o) = op := by
  apply BitVec.eq_of_getLsbD_eq
  intro i hi
  rw [opcodeBits_getLsbD, encodeR]
  simp only [BitVec.getLsbD_or, Field.put_getLsbD, BitVec.getLsbD_setWidth, Field.stop]
  interval_cases i <;> simp

/-- An I-format word has the opcode it was made with (R97 f). -/
theorem opcodeBits_encodeI (op : BitVec 6) (o : OperandI) : opcodeBits (encodeI op o) = op := by
  apply BitVec.eq_of_getLsbD_eq
  intro i hi
  rw [opcodeBits_getLsbD, encodeI]
  simp only [BitVec.getLsbD_or, Field.put_getLsbD, BitVec.getLsbD_setWidth, Field.stop]
  interval_cases i <;> simp

/-- A J-format word has the opcode it was made with (R97 f). -/
theorem opcodeBits_encodeJ (op : BitVec 6) (o : OperandJ) : opcodeBits (encodeJ op o) = op := by
  apply BitVec.eq_of_getLsbD_eq
  intro i hi
  rw [opcodeBits_getLsbD, encodeJ]
  simp only [BitVec.getLsbD_or, Field.put_getLsbD, BitVec.getLsbD_setWidth, Field.stop]
  interval_cases i <;> simp

/-- What decoding to an instruction says (R99): the opcode was found, and the operands are its format's. -/
theorem decode_eq_instr {m : OpcodeMap} {w : Word} {i : Instr} :
    decode m w = .instr i ↔ ∃ op, m.lookup (opcodeBits w) = some op ∧ assemble op w = i := by
  unfold decode
  cases hl : m.lookup (opcodeBits w) <;> simp

/-- A looked-up opcode has the value looked up (R79). -/
theorem OpcodeMap.lookup_sound {m : OpcodeMap} {bits : BitVec 6} {op : Opcode} (h : m.lookup bits = some op) :
    m.code op = bits := by
  simpa using List.find?_some h

end Sys2Proof
end

