-- ==== Sys2Proof/Laws/Operands.lean ====
section
/-! SUPPORT. Each operand form, address form and condition said once in the library's own words. -/

namespace Sys2Proof.Machine

@[simp] theorem samePattern_iff {a b : Word} : samePattern a b = true ↔ a = b := by simp [samePattern]

@[simp] theorem inBounds_iff {words idx : Nat} : inBounds words idx = true ↔ idx < words := by simp [inBounds]

/-- `sext_16` is the library's sign extension (R76, R92). -/
theorem immSigned_eq (imm : BitVec 16) : immSigned imm = imm.signExtend 32 := by
  have himm := imm.isLt
  apply BitVec.eq_of_toInt_eq
  rw [BitVec.toInt_signExtend_of_le (by decide), immSigned, signExtend, BitVec.toInt_eq_toNat_cond imm,
    BitVec.toNat_setWidth, Nat.mod_eq_of_lt (show imm.toNat < 2 ^ 32 by omega), Nat.mod_eq_of_lt himm]
  split_ifs with h1 h2 h2
  · rw [BitVec.toInt_ofInt, Int.bmod_eq_of_le] <;> omega
  · omega
  · omega
  · rw [BitVec.toInt_ofInt, Int.bmod_eq_of_le] <;> omega

/-- A word index is the byte address divided by 4, rounded down (R51). -/
theorem wordIndex_eq (ea : Word) : wordIndex ea = ea.toNat / 4 := by rw [wordIndex, Nat.shiftRight_eq_div_pow]

theorem immUpper_eq (imm : BitVec 16) : immUpper imm = imm.setWidth 32 <<< 16 := by
  apply BitVec.eq_of_getLsbD_eq
  intro i hi
  rw [immUpper, BitVec.getLsbD_append, BitVec.getLsbD_shiftLeft, BitVec.getLsbD_setWidth]
  split_ifs with h
  · simp [h]
  · simp [h, hi]; omega

/-- The taken target is four times the signed offset away (R120). -/
theorem branchTarget_eq (pc : Word) (imm : BitVec 16) :
    branchTarget pc imm = pc + BitVec.ofInt 32 (4 * imm.toInt) := by
  rw [branchTarget, immSigned_eq]
  congr 1
  apply BitVec.eq_of_toInt_eq
  rw [BitVec.shiftLeft_eq_mul_twoPow, BitVec.toInt_mul, BitVec.toInt_signExtend_of_le (by decide), BitVec.toInt_ofInt,
    show (BitVec.twoPow 32 2).toInt = 4 from by decide, mul_comm]

/-- `pc[31:28] ++ addr ++ 00` (R121). -/
theorem jumpTarget_eq (pc : Word) (addr : BitVec 26) : jumpTarget pc addr = pc.extractLsb' 28 4 ++ addr ++ 0#2 := by
  apply BitVec.eq_of_getLsbD_eq
  intro i hi
  rw [jumpTarget, BitVec.getLsbD_or, BitVec.getLsbD_and, BitVec.getLsbD_shiftLeft, BitVec.getLsbD_setWidth,
    BitVec.getLsbD_append, BitVec.getLsbD_append, BitVec.getLsbD_extractLsb']
  interval_cases i <;> simp

/-- The product's halves are the product (R112). -/
theorem highHalf_append_lowHalf (p : BitVec 64) : highHalf p ++ lowHalf p = p := by
  apply BitVec.eq_of_getLsbD_eq
  intro i hi
  rw [BitVec.getLsbD_append, highHalf, lowHalf, BitVec.getLsbD_extractLsb', BitVec.getLsbD_extractLsb']
  split_ifs with h
  · simp [h]
  · simp [show i - 32 < 32 by omega, show 32 + (i - 32) = i by omega]

/-- "The product of two signed 32-bit values always fits 64 bits, so nothing is lost" (R112). -/
theorem toInt_signedProduct (a b : Word) : (signedProduct a b).toInt = a.toInt * b.toInt := by
  have ha := BitVec.toInt_lt (x := a)
  have ha' := BitVec.le_toInt (x := a)
  have hb := BitVec.toInt_lt (x := b)
  have hb' := BitVec.le_toInt (x := b)
  norm_num at ha ha' hb hb'
  rw [signedProduct, BitVec.toInt_ofInt, Int.bmod_eq_of_le] <;> norm_num <;> nlinarith

/-! A `pc` that is a multiple of 4 stays one (R23). -/

theorem nextPc_aligned {pc : Word} (h : pc.toNat % 4 = 0) : (nextPc pc).toNat % 4 = 0 := by
  rw [nextPc, BitVec.toNat_add]
  have : (4 : Word).toNat = 4 := rfl
  omega

theorem branchTarget_aligned {pc : Word} (h : pc.toNat % 4 = 0) (imm : BitVec 16) :
    (branchTarget pc imm).toNat % 4 = 0 := by
  rw [branchTarget, BitVec.toNat_add, BitVec.toNat_shiftLeft, Nat.shiftLeft_eq]
  omega

theorem jumpTarget_aligned (pc : Word) (addr : BitVec 26) : (jumpTarget pc addr).toNat % 4 = 0 := by
  have h : (jumpTarget pc addr).extractLsb' 0 2 = 0#2 := by
    apply BitVec.eq_of_getLsbD_eq
    intro i hi
    rw [jumpTarget_eq, BitVec.getLsbD_extractLsb', BitVec.getLsbD_append, if_pos (by omega)]
    simp
  have h' := congrArg BitVec.toNat h
  rw [BitVec.extractLsb'_toNat] at h'
  simpa using h'

end Sys2Proof.Machine
end

