-- ==== Sys2Proof/Laws/Memory.lean ====
section
/-! SUPPORT. The laws of memory: a read after a write, the canonical form and its uniqueness, and what a patch undone or
redone does. -/

namespace Sys2Proof

/-- What the canonical form says of a list with a first cell. -/
theorem Memory.wfFrom_cons {lo a : Nat} {v : Byte} {rest : Memory} :
    Memory.wfFrom lo ((a, v) :: rest) = true ↔
      lo ≤ a ∧ v ≠ Config.unlistedByte ∧ Memory.wfFrom (a + 1) rest = true := by
  simp [Memory.wfFrom, and_assoc]

theorem Memory.wfFrom_mono {lo lo' : Nat} {m : Memory} (h : m.wfFrom lo') (hl : lo ≤ lo') : m.wfFrom lo := by
  cases m with
  | nil => rfl
  | cons c rest =>
    rw [Memory.wfFrom_cons] at h ⊢
    exact ⟨hl.trans h.1, h.2⟩

/-- Below its first possible address a canonical memory lists nothing. -/
theorem Memory.read_below {lo a : Nat} {m : Memory} (h : m.wfFrom lo) (ha : a < lo) :
    m.read a = Config.unlistedByte := by
  induction m generalizing lo with
  | nil => rfl
  | cons c rest ih =>
    rw [Memory.wfFrom_cons] at h
    rw [Memory.read, if_neg (by omega)]
    exact ih h.2.2 (by omega)

/-- A cell reads as the byte last written to it, and a write leaves every other cell alone. -/
theorem Memory.read_write_from {lo : Nat} {m : Memory} (h : m.wfFrom lo) (a b : Nat) (v : Byte) :
    (m.write a v).read b = if a = b then v else m.read b := by
  induction m generalizing lo with
  | nil =>
    by_cases hv : v = Config.unlistedByte <;> by_cases hab : a = b <;> simp [Memory.write, Memory.read, hv, hab]
  | cons c rest ih =>
    obtain ⟨k, u⟩ := c
    rw [Memory.wfFrom_cons] at h
    have below : a ≤ k → Memory.read rest a = Config.unlistedByte := fun hk => Memory.read_below h.2.2 (Nat.lt_succ_of_le hk)
    have first : a < k → Memory.read ((k, u) :: rest) a = Config.unlistedByte := fun hk => by
      rw [Memory.read, if_neg (by omega)]; exact below hk.le
    rw [Memory.write]
    rcases lt_trichotomy a k with hk | hk | hk
    · rw [if_pos hk]
      by_cases hv : v = Config.unlistedByte <;> by_cases hab : a = b
      · subst hab; simp [hv, first hk]
      · simp [hv, hab]
      · simp [hv, hab, Memory.read]
      · simp [hv, hab, Memory.read]
    · subst hk
      rw [if_neg (lt_irrefl _), if_pos rfl]
      by_cases hv : v = Config.unlistedByte <;> by_cases hab : a = b
      · subst hab; simp [hv, below le_rfl]
      · simp [hv, hab, Memory.read]
      · simp [hv, hab, Memory.read]
      · simp [hv, hab, Memory.read]
    · rw [if_neg (by omega), if_neg (by omega), Memory.read, Memory.read, ih h.2.2]
      by_cases hab : a = b
      · rw [if_neg (by omega), if_pos hab, if_pos hab]
      · simp [hab]

/-- A write keeps the canonical form. -/
theorem Memory.write_wfFrom {lo : Nat} {m : Memory} (h : m.wfFrom lo) {a : Nat} (ha : lo ≤ a) (v : Byte) :
    (m.write a v).wfFrom lo := by
  induction m generalizing lo with
  | nil =>
    by_cases hv : v = Config.unlistedByte
    · simp [Memory.write, hv, Memory.wfFrom]
    · rw [Memory.write, if_neg hv, Memory.wfFrom_cons]; exact ⟨ha, hv, rfl⟩
  | cons c rest ih =>
    obtain ⟨k, u⟩ := c
    have hc := h
    rw [Memory.wfFrom_cons] at h
    rw [Memory.write]
    rcases lt_trichotomy a k with hk | hk | hk
    · rw [if_pos hk]
      split_ifs with hv
      · exact hc
      · rw [Memory.wfFrom_cons, Memory.wfFrom_cons]; exact ⟨ha, hv, by omega, h.2⟩
    · subst hk
      rw [if_neg (lt_irrefl _), if_pos rfl]
      split_ifs with hv
      · exact Memory.wfFrom_mono h.2.2 (by omega)
      · rw [Memory.wfFrom_cons]; exact ⟨ha, hv, h.2.2⟩
    · rw [if_neg (by omega), if_neg (by omega), Memory.wfFrom_cons]
      exact ⟨h.1, h.2.1, ih h.2.2 (by omega)⟩

/-- Canonical memories that read alike everywhere are the same list. -/
theorem Memory.ext_from {lo lo' : Nat} {m m' : Memory} (h : m.wfFrom lo) (h' : m'.wfFrom lo')
    (hr : ∀ a, m.read a = m'.read a) : m = m' := by
  induction m generalizing lo lo' m' with
  | nil =>
    cases m' with
    | nil => rfl
    | cons c rest =>
      rw [Memory.wfFrom_cons] at h'
      have := hr c.1
      simp only [Memory.read, if_true] at this
      exact absurd this.symm h'.2.1
  | cons c rest ih =>
    obtain ⟨k, u⟩ := c
    rw [Memory.wfFrom_cons] at h
    cases m' with
    | nil =>
      have := hr k
      simp only [Memory.read, if_true] at this
      exact absurd this h.2.1
    | cons c' rest' =>
      obtain ⟨k', u'⟩ := c'
      rw [Memory.wfFrom_cons] at h'
      have hk : k = k' := by
        rcases lt_trichotomy k k' with hlt | heq | hgt
        · have := hr k
          rw [Memory.read, if_pos rfl, Memory.read, if_neg (by omega), Memory.read_below h'.2.2 (by omega)] at this
          exact absurd this h.2.1
        · exact heq
        · have := hr k'
          rw [Memory.read, if_neg (by omega), Memory.read, if_pos rfl, Memory.read_below h.2.2 (by omega)] at this
          exact absurd this.symm h'.2.1
      subst hk
      have hu : u = u' := by simpa [Memory.read] using hr k
      subst hu
      have : rest = rest' := ih h.2.2 h'.2.2 fun a => by
        by_cases ha : k = a
        · subst ha; rw [Memory.read_below h.2.2 (by omega), Memory.read_below h'.2.2 (by omega)]
        · have := hr a; simpa [Memory.read, ha] using this
      rw [this]

/-- A cell reads as the byte last written to it, and a write leaves every other cell alone. -/
theorem Memory.read_write {m : Memory} (h : m.wf) (a b : Nat) (v : Byte) :
    (m.write a v).read b = if a = b then v else m.read b := Memory.read_write_from h a b v

/-- Writing a cell keeps the canonical form. -/
theorem Memory.write_wf {m : Memory} (h : m.wf) (a : Nat) (v : Byte) : (m.write a v).wf :=
  Memory.write_wfFrom h (Nat.zero_le a) v

/-- Canonical memories that read alike everywhere are equal. -/
theorem Memory.ext {m m' : Memory} (h : m.wf) (h' : m'.wf) (hr : ∀ a, m.read a = m'.read a) : m = m' :=
  Memory.ext_from h h' hr

/-- Storing a word keeps the canonical form (R54). -/
theorem Memory.writeWord_wf {m : Memory} (h : m.wf) (idx : Nat) (v : Word) : (m.writeWord idx v).wf :=
  Memory.write_wf (Memory.write_wf (Memory.write_wf (Memory.write_wf h _ _) _ _) _ _) _ _

/-- The byte of every cell after a word was stored: the word's own four cells hold its bytes, every other cell is as
before. -/
theorem Memory.read_writeWord {m : Memory} (h : m.wf) (idx : Nat) (v : Word) (a : Nat) :
    (m.writeWord idx v).read a =
      if a / 4 = idx then v.extractLsb' (8 * (a % 4)) 8 else m.read a := by
  have h1 := Memory.write_wf h (4 * idx) (v.extractLsb' 0 8)
  have h2 := Memory.write_wf h1 (4 * idx + 1) (v.extractLsb' 8 8)
  have h3 := Memory.write_wf h2 (4 * idx + 2) (v.extractLsb' 16 8)
  rw [Memory.writeWord, Memory.read_write h3, Memory.read_write h2, Memory.read_write h1, Memory.read_write h]
  by_cases ha : a / 4 = idx
  · rw [if_pos ha]
    have : a % 4 < 4 := Nat.mod_lt _ (by omega)
    interval_cases hm : a % 4
    · rw [if_neg (by omega), if_neg (by omega), if_neg (by omega), if_pos (by omega)]
    · rw [if_neg (by omega), if_neg (by omega), if_pos (by omega)]
    · rw [if_neg (by omega), if_pos (by omega)]
    · rw [if_pos (by omega)]
  · rw [if_neg ha, if_neg (by omega), if_neg (by omega), if_neg (by omega), if_neg (by omega)]

/-- A word is its four bytes. -/
theorem Memory.word_of_bytes (v : Word) :
    v.extractLsb' 24 8 ++ v.extractLsb' 16 8 ++ v.extractLsb' 8 8 ++ v.extractLsb' 0 8 = v := by
  apply BitVec.eq_of_getLsbD_eq
  intro i hi
  simp only [BitVec.getLsbD_append, BitVec.getLsbD_extractLsb']
  split_ifs with h1 h2 h3
  · simp [h1]
  · simp [show i - 8 < 8 by omega, show 8 + (i - 8) = i by omega]
  · simp [show i - 8 - 8 < 8 by omega, show 16 + (i - 8 - 8) = i by omega]
  · simp [show i - 8 - 8 - 8 < 8 by omega, show 24 + (i - 8 - 8 - 8) = i by omega]

/-- A word reads as what was last stored at its index, and a store leaves every other word alone (R53, R54). -/
theorem Memory.readWord_writeWord {m : Memory} (h : m.wf) (i j : Nat) (v : Word) :
    (m.writeWord i v).readWord j = if i = j then v else m.readWord j := by
  simp only [Memory.readWord, Memory.read_writeWord h]
  by_cases hij : i = j
  · subst hij
    rw [if_pos rfl, if_pos (by omega), if_pos (by omega), if_pos (by omega), if_pos (by omega)]
    rw [show (4 * i + 3) % 4 = 3 by omega, show (4 * i + 2) % 4 = 2 by omega, show (4 * i + 1) % 4 = 1 by omega,
      show 4 * i % 4 = 0 by omega]
    exact Memory.word_of_bytes v
  · rw [if_neg hij, if_neg (by omega), if_neg (by omega), if_neg (by omega), if_neg (by omega)]

/-- The bytes of a word as the memory reads it. -/
theorem Memory.extract_readWord (m : Memory) (a : Nat) :
    (m.readWord (a / 4)).extractLsb' (8 * (a % 4)) 8 = m.read a := by
  have hlt : a % 4 < 4 := Nat.mod_lt _ (by omega)
  have hread : ∀ k, a % 4 = k → m.read (4 * (a / 4) + k) = m.read a := fun k hk => by
    congr 1; omega
  rw [Memory.readWord]
  apply BitVec.eq_of_getLsbD_eq
  intro i hi
  interval_cases hm : a % 4 <;>
    simp only [BitVec.getLsbD_append, BitVec.getLsbD_extractLsb', hi, decide_true, Bool.true_and] <;>
    rw [← hread _ rfl]
  · rw [if_pos (by omega)]; simp
  · rw [if_neg (by omega), if_pos (by omega)]; congr 1; omega
  · rw [if_neg (by omega), if_neg (by omega), if_pos (by omega)]; congr 1; omega
  · rw [if_neg (by omega), if_neg (by omega), if_neg (by omega)]; congr 1; omega

/-- Two canonical memories with the same words are equal. -/
theorem Memory.ext_words {m m' : Memory} (h : m.wf) (h' : m'.wf) (hr : ∀ i, m.readWord i = m'.readWord i) : m = m' :=
  Memory.ext h h' fun a => by rw [← Memory.extract_readWord m, ← Memory.extract_readWord m', hr]

/-- Storing the word that is there already changes nothing (R54). -/
theorem Memory.writeWord_self {m : Memory} (h : m.wf) (i : Nat) : m.writeWord i (m.readWord i) = m :=
  Memory.ext_words (Memory.writeWord_wf h _ _) h fun j => by
    rw [Memory.readWord_writeWord h]; split_ifs with hij
    · rw [hij]
    · rfl

/-- Of two stores to the same word the later one counts. -/
theorem Memory.writeWord_writeWord {m : Memory} (h : m.wf) (i : Nat) (v u : Word) :
    (m.writeWord i v).writeWord i u = m.writeWord i u :=
  Memory.ext_words (Memory.writeWord_wf (Memory.writeWord_wf h _ _) _ _) (Memory.writeWord_wf h _ _) fun j => by
    rw [Memory.readWord_writeWord (Memory.writeWord_wf h _ _), Memory.readWord_writeWord h, Memory.readWord_writeWord h]
    split_ifs <;> rfl

theorem Memory.within_nil (n : Nat) : Memory.within n [] = true := rfl

theorem Memory.within_cons {n : Nat} {c : Host.Cell} {rest : Memory} :
    Memory.within n (c :: rest) = true ↔ c.1 < 4 * n ∧ Memory.within n rest = true := by
  simp [Memory.within]

/-- A write below the limit keeps every cell below it. -/
theorem Memory.write_within {n : Nat} {m : Memory} (h : m.within n) {a : Nat} (ha : a < 4 * n) (v : Byte) :
    (m.write a v).within n := by
  induction m with
  | nil =>
    rw [Memory.write]; split_ifs
    · rfl
    · exact Memory.within_cons.2 ⟨ha, rfl⟩
  | cons c rest ih =>
    have hc := h
    rw [Memory.within_cons] at h
    rw [Memory.write]
    split_ifs
    · exact hc
    · exact Memory.within_cons.2 ⟨ha, hc⟩
    · exact h.2
    · exact Memory.within_cons.2 ⟨ha, h.2⟩
    · exact Memory.within_cons.2 ⟨h.1, ih h.2⟩

/-- Storing a word below MEM_WORDS keeps every cell in the data space (R58). -/
theorem Memory.writeWord_within {n : Nat} {m : Memory} (h : m.within n) {i : Nat} (hi : i < n) (v : Word) :
    (m.writeWord i v).within n :=
  Memory.write_within (Memory.write_within (Memory.write_within (Memory.write_within h (by omega) _) (by omega) _)
    (by omega) _) (by omega) _

end Sys2Proof

namespace Sys2Proof.Machine

theorem redoPatch_wf {m : Memory} (h : m.wf) (p : Option Patch) : (redoPatch p m).wf := by
  cases p with
  | none => exact h
  | some p => exact Memory.writeWord_wf h _ _

theorem undoPatch_wf {m : Memory} (h : m.wf) (p : Option Patch) : (undoPatch p m).wf := by
  cases p with
  | none => exact h
  | some p => exact Memory.writeWord_wf h _ _

end Sys2Proof.Machine
end

