-- ==== Sys2Proof/Laws/State.lean ====
section
/-! SUPPORT. One lemma per field per update of a snapshot or of the state, each true by unfolding, so that no later proof
unfolds a record update. -/

namespace Sys2Proof.Machine

@[simp] theorem Snapshot.goTo_pc (e : Snapshot) (p : Word) : (e.goTo p).pc = p := rfl
@[simp] theorem Snapshot.goTo_x (e : Snapshot) (p : Word) : (e.goTo p).x = e.x := rfl
@[simp] theorem Snapshot.goTo_f (e : Snapshot) (p : Word) : (e.goTo p).f = e.f := rfl
@[simp] theorem Snapshot.goTo_hi (e : Snapshot) (p : Word) : (e.goTo p).hi = e.hi := rfl
@[simp] theorem Snapshot.goTo_lo (e : Snapshot) (p : Word) : (e.goTo p).lo = e.lo := rfl
@[simp] theorem Snapshot.goTo_patch (e : Snapshot) (p : Word) : (e.goTo p).patch = none := rfl

@[simp] theorem Snapshot.fallThrough_pc (e : Snapshot) : (e.fallThrough).pc = nextPc e.pc := rfl
@[simp] theorem Snapshot.fallThrough_x (e : Snapshot) : (e.fallThrough).x = e.x := rfl
@[simp] theorem Snapshot.fallThrough_f (e : Snapshot) : (e.fallThrough).f = e.f := rfl
@[simp] theorem Snapshot.fallThrough_hi (e : Snapshot) : (e.fallThrough).hi = e.hi := rfl
@[simp] theorem Snapshot.fallThrough_lo (e : Snapshot) : (e.fallThrough).lo = e.lo := rfl
@[simp] theorem Snapshot.fallThrough_patch (e : Snapshot) : (e.fallThrough).patch = none := rfl

@[simp] theorem Snapshot.writeX_pc (e : Snapshot) (r : RegIx) (v : Word) : (e.writeX r v).pc = e.pc := rfl
@[simp] theorem Snapshot.writeX_x (e : Snapshot) (r : RegIx) (v : Word) : (e.writeX r v).x = e.x.set r.toNat v r.isLt := rfl
@[simp] theorem Snapshot.writeX_f (e : Snapshot) (r : RegIx) (v : Word) : (e.writeX r v).f = e.f := rfl
@[simp] theorem Snapshot.writeX_hi (e : Snapshot) (r : RegIx) (v : Word) : (e.writeX r v).hi = e.hi := rfl
@[simp] theorem Snapshot.writeX_lo (e : Snapshot) (r : RegIx) (v : Word) : (e.writeX r v).lo = e.lo := rfl
@[simp] theorem Snapshot.writeX_patch (e : Snapshot) (r : RegIx) (v : Word) : (e.writeX r v).patch = e.patch := rfl

@[simp] theorem Snapshot.writeF_pc (e : Snapshot) (r : RegIx) (v : Word) : (e.writeF r v).pc = e.pc := rfl
@[simp] theorem Snapshot.writeF_x (e : Snapshot) (r : RegIx) (v : Word) : (e.writeF r v).x = e.x := rfl
@[simp] theorem Snapshot.writeF_f (e : Snapshot) (r : RegIx) (v : Word) : (e.writeF r v).f = e.f.set r.toNat v r.isLt := rfl
@[simp] theorem Snapshot.writeF_hi (e : Snapshot) (r : RegIx) (v : Word) : (e.writeF r v).hi = e.hi := rfl
@[simp] theorem Snapshot.writeF_lo (e : Snapshot) (r : RegIx) (v : Word) : (e.writeF r v).lo = e.lo := rfl
@[simp] theorem Snapshot.writeF_patch (e : Snapshot) (r : RegIx) (v : Word) : (e.writeF r v).patch = e.patch := rfl

@[simp] theorem Snapshot.writeHiLo_pc (e : Snapshot) (h l : Word) : (e.writeHiLo h l).pc = e.pc := rfl
@[simp] theorem Snapshot.writeHiLo_x (e : Snapshot) (h l : Word) : (e.writeHiLo h l).x = e.x := rfl
@[simp] theorem Snapshot.writeHiLo_f (e : Snapshot) (h l : Word) : (e.writeHiLo h l).f = e.f := rfl
@[simp] theorem Snapshot.writeHiLo_hi (e : Snapshot) (h l : Word) : (e.writeHiLo h l).hi = h := rfl
@[simp] theorem Snapshot.writeHiLo_lo (e : Snapshot) (h l : Word) : (e.writeHiLo h l).lo = l := rfl
@[simp] theorem Snapshot.writeHiLo_patch (e : Snapshot) (h l : Word) : (e.writeHiLo h l).patch = e.patch := rfl

@[simp] theorem Snapshot.withPatch_pc (e : Snapshot) (p : Patch) : (e.withPatch p).pc = e.pc := rfl
@[simp] theorem Snapshot.withPatch_x (e : Snapshot) (p : Patch) : (e.withPatch p).x = e.x := rfl
@[simp] theorem Snapshot.withPatch_f (e : Snapshot) (p : Patch) : (e.withPatch p).f = e.f := rfl
@[simp] theorem Snapshot.withPatch_hi (e : Snapshot) (p : Patch) : (e.withPatch p).hi = e.hi := rfl
@[simp] theorem Snapshot.withPatch_lo (e : Snapshot) (p : Patch) : (e.withPatch p).lo = e.lo := rfl
@[simp] theorem Snapshot.withPatch_patch (e : Snapshot) (p : Patch) : (e.withPatch p).patch = some p := rfl

@[simp] theorem State.countOne_setup (s : State) (op : Opcode) : (s.countOne op).setup = s.setup := rfl
@[simp] theorem State.countOne_hist (s : State) (op : Opcode) : (s.countOne op).hist = s.hist := rfl
@[simp] theorem State.countOne_mem (s : State) (op : Opcode) : (s.countOne op).mem = s.mem := rfl
@[simp] theorem State.countOne_input (s : State) (op : Opcode) : (s.countOne op).input = s.input := rfl
@[simp] theorem State.countOne_running (s : State) (op : Opcode) : (s.countOne op).running = s.running := rfl
@[simp] theorem State.countOne_halt (s : State) (op : Opcode) : (s.countOne op).halt = s.halt := rfl
@[simp] theorem State.countOne_bp (s : State) (op : Opcode) : (s.countOne op).bp = s.bp := rfl
@[simp] theorem State.countOne_stats (s : State) (op : Opcode) : (s.countOne op).stats = s.stats.bump op := rfl
@[simp] theorem State.countOne_arrivals (s : State) (op : Opcode) : (s.countOne op).arrivals = s.arrivals := rfl

@[simp] theorem State.takeHalt_setup (s : State) (r : HaltReason) : (s.takeHalt r).setup = s.setup := rfl
@[simp] theorem State.takeHalt_hist (s : State) (r : HaltReason) : (s.takeHalt r).hist = s.hist := rfl
@[simp] theorem State.takeHalt_mem (s : State) (r : HaltReason) : (s.takeHalt r).mem = s.mem := rfl
@[simp] theorem State.takeHalt_input (s : State) (r : HaltReason) : (s.takeHalt r).input = s.input := rfl
@[simp] theorem State.takeHalt_running (s : State) (r : HaltReason) : (s.takeHalt r).running = false := rfl
@[simp] theorem State.takeHalt_halt (s : State) (r : HaltReason) : (s.takeHalt r).halt = some r := rfl
@[simp] theorem State.takeHalt_bp (s : State) (r : HaltReason) : (s.takeHalt r).bp = s.bp := rfl
@[simp] theorem State.takeHalt_stats (s : State) (r : HaltReason) : (s.takeHalt r).stats = s.stats := rfl
@[simp] theorem State.takeHalt_arrivals (s : State) (r : HaltReason) : (s.takeHalt r).arrivals = s.arrivals := rfl

@[simp] theorem State.clearHalt_setup (s : State) : (s.clearHalt).setup = s.setup := rfl
@[simp] theorem State.clearHalt_hist (s : State) : (s.clearHalt).hist = s.hist := rfl
@[simp] theorem State.clearHalt_mem (s : State) : (s.clearHalt).mem = s.mem := rfl
@[simp] theorem State.clearHalt_input (s : State) : (s.clearHalt).input = s.input := rfl
@[simp] theorem State.clearHalt_running (s : State) : (s.clearHalt).running = false := rfl
@[simp] theorem State.clearHalt_halt (s : State) : (s.clearHalt).halt = none := rfl
@[simp] theorem State.clearHalt_bp (s : State) : (s.clearHalt).bp = s.bp := rfl
@[simp] theorem State.clearHalt_stats (s : State) : (s.clearHalt).stats = s.stats := rfl
@[simp] theorem State.clearHalt_arrivals (s : State) : (s.clearHalt).arrivals = s.arrivals := rfl

@[simp] theorem State.storeWord_setup (s : State) (idx : Nat) (v : Word) : (s.storeWord idx v).setup = s.setup := rfl
@[simp] theorem State.storeWord_hist (s : State) (idx : Nat) (v : Word) : (s.storeWord idx v).hist = s.hist := rfl
@[simp] theorem State.storeWord_mem (s : State) (idx : Nat) (v : Word) : (s.storeWord idx v).mem = s.mem.writeWord idx v := rfl
@[simp] theorem State.storeWord_input (s : State) (idx : Nat) (v : Word) : (s.storeWord idx v).input = s.input := rfl
@[simp] theorem State.storeWord_running (s : State) (idx : Nat) (v : Word) : (s.storeWord idx v).running = s.running := rfl
@[simp] theorem State.storeWord_halt (s : State) (idx : Nat) (v : Word) : (s.storeWord idx v).halt = s.halt := rfl
@[simp] theorem State.storeWord_bp (s : State) (idx : Nat) (v : Word) : (s.storeWord idx v).bp = s.bp := rfl
@[simp] theorem State.storeWord_stats (s : State) (idx : Nat) (v : Word) : (s.storeWord idx v).stats = s.stats := rfl
@[simp] theorem State.storeWord_arrivals (s : State) (idx : Nat) (v : Word) : (s.storeWord idx v).arrivals = s.arrivals := rfl

@[simp] theorem State.setInput_setup (s : State) (rest : List Byte) : (s.setInput rest).setup = s.setup := rfl
@[simp] theorem State.setInput_hist (s : State) (rest : List Byte) : (s.setInput rest).hist = s.hist := rfl
@[simp] theorem State.setInput_mem (s : State) (rest : List Byte) : (s.setInput rest).mem = s.mem := rfl
@[simp] theorem State.setInput_input (s : State) (rest : List Byte) : (s.setInput rest).input = some rest := rfl
@[simp] theorem State.setInput_running (s : State) (rest : List Byte) : (s.setInput rest).running = s.running := rfl
@[simp] theorem State.setInput_halt (s : State) (rest : List Byte) : (s.setInput rest).halt = s.halt := rfl
@[simp] theorem State.setInput_bp (s : State) (rest : List Byte) : (s.setInput rest).bp = s.bp := rfl
@[simp] theorem State.setInput_stats (s : State) (rest : List Byte) : (s.setInput rest).stats = s.stats := rfl
@[simp] theorem State.setInput_arrivals (s : State) (rest : List Byte) : (s.setInput rest).arrivals = s.arrivals := rfl

@[simp] theorem State.resetHistory_setup (s : State) : (s.resetHistory).setup = s.setup := rfl
@[simp] theorem State.resetHistory_hist (s : State) : (s.resetHistory).hist = ⟨[], Snapshot.genesis, []⟩ := rfl
@[simp] theorem State.resetHistory_mem (s : State) : (s.resetHistory).mem = s.setup.memInit := rfl
@[simp] theorem State.resetHistory_input (s : State) : (s.resetHistory).input = s.input := rfl
@[simp] theorem State.resetHistory_running (s : State) : (s.resetHistory).running = s.running := rfl
@[simp] theorem State.resetHistory_halt (s : State) : (s.resetHistory).halt = s.halt := rfl
@[simp] theorem State.resetHistory_bp (s : State) : (s.resetHistory).bp = s.bp := rfl
@[simp] theorem State.resetHistory_stats (s : State) : (s.resetHistory).stats = s.stats := rfl
@[simp] theorem State.resetHistory_arrivals (s : State) : (s.resetHistory).arrivals = s.arrivals := rfl

@[simp] theorem State.fullReset_setup (s : State) : (s.fullReset).setup = s.setup := rfl
@[simp] theorem State.fullReset_hist (s : State) : (s.fullReset).hist = ⟨[], Snapshot.genesis, []⟩ := rfl
@[simp] theorem State.fullReset_mem (s : State) : (s.fullReset).mem = s.setup.memInit := rfl
@[simp] theorem State.fullReset_input (s : State) : (s.fullReset).input = s.input := rfl
@[simp] theorem State.fullReset_running (s : State) : (s.fullReset).running = false := rfl
@[simp] theorem State.fullReset_halt (s : State) : (s.fullReset).halt = none := rfl
@[simp] theorem State.fullReset_bp (s : State) : (s.fullReset).bp = s.bp := rfl
@[simp] theorem State.fullReset_stats (s : State) : (s.fullReset).stats = Stats.zero := rfl
@[simp] theorem State.fullReset_arrivals (s : State) : (s.fullReset).arrivals = s.arrivals := rfl

@[simp] theorem State.issue_setup (s : State) (c : Command) : (s.issue c).setup = s.setup := rfl
@[simp] theorem State.issue_hist (s : State) (c : Command) : (s.issue c).hist = s.hist := rfl
@[simp] theorem State.issue_mem (s : State) (c : Command) : (s.issue c).mem = s.mem := rfl
@[simp] theorem State.issue_input (s : State) (c : Command) : (s.issue c).input = s.input := rfl
@[simp] theorem State.issue_running (s : State) (c : Command) : (s.issue c).running = s.running := rfl
@[simp] theorem State.issue_halt (s : State) (c : Command) : (s.issue c).halt = s.halt := rfl
@[simp] theorem State.issue_bp (s : State) (c : Command) : (s.issue c).bp = s.bp := rfl
@[simp] theorem State.issue_stats (s : State) (c : Command) : (s.issue c).stats = s.stats := rfl
@[simp] theorem State.issue_arrivals (s : State) (c : Command) : (s.issue c).arrivals = s.arrivals ++ [some c] := rfl

/-- The current state is the history's current entry. -/
@[simp] theorem State.now_eq (s : State) : s.now = s.hist.now := rfl

/-- A register reads as what was last written to it, and a write leaves the others alone (R10, R22). -/
@[simp] theorem Snapshot.readX_writeX (e : Snapshot) (r q : RegIx) (v : Word) :
    (e.writeX r v).readX q = if r = q then v else e.readX q := by
  simp [Snapshot.readX, Snapshot.writeX, Vector.getElem_set, BitVec.toNat_inj]

@[simp] theorem Snapshot.readF_writeF (e : Snapshot) (r q : RegIx) (v : Word) :
    (e.writeF r v).readF q = if r = q then v else e.readF q := by
  simp [Snapshot.readF, Snapshot.writeF, Vector.getElem_set, BitVec.toNat_inj]

@[simp] theorem Snapshot.readF_writeX (e : Snapshot) (r q : RegIx) (v : Word) :
    (e.writeX r v).readF q = e.readF q := rfl

@[simp] theorem Snapshot.readX_writeF (e : Snapshot) (r q : RegIx) (v : Word) :
    (e.writeF r v).readX q = e.readX q := rfl

@[simp] theorem Snapshot.readX_goTo (e : Snapshot) (p : Word) (q : RegIx) : (e.goTo p).readX q = e.readX q := rfl

@[simp] theorem Snapshot.readF_goTo (e : Snapshot) (p : Word) (q : RegIx) : (e.goTo p).readF q = e.readF q := rfl

@[simp] theorem Snapshot.readX_fallThrough (e : Snapshot) (q : RegIx) : e.fallThrough.readX q = e.readX q := rfl

@[simp] theorem Snapshot.readF_fallThrough (e : Snapshot) (q : RegIx) : e.fallThrough.readF q = e.readF q := rfl

@[simp] theorem Snapshot.readX_writeHiLo (e : Snapshot) (h l : Word) (q : RegIx) :
    (e.writeHiLo h l).readX q = e.readX q := rfl

@[simp] theorem Snapshot.readF_writeHiLo (e : Snapshot) (h l : Word) (q : RegIx) :
    (e.writeHiLo h l).readF q = e.readF q := rfl

@[simp] theorem Snapshot.readX_withPatch (e : Snapshot) (p : Patch) (q : RegIx) :
    (e.withPatch p).readX q = e.readX q := rfl

@[simp] theorem Snapshot.readF_withPatch (e : Snapshot) (p : Patch) (q : RegIx) :
    (e.withPatch p).readF q = e.readF q := rfl

end Sys2Proof.Machine
end

