-- ==== Sys2Proof/Laws/Ops.lean ====
section
/-! SUPPORT. One lemma for each shared operation, saying once what it can do: the proofs cite these and do not unfold the
operation. -/

namespace Sys2Proof.Machine

/-! Statistics. -/

/-- A counter after one more execution (R193). -/
theorem Stats.count_bump (c : Stats) (op o : Opcode) :
    (c.bump op).count o = c.count o + if o = op then 1 else 0 := by
  cases op <;> cases o <;> rfl

@[simp] theorem Stats.total_bump (c : Stats) (op : Opcode) : (c.bump op).total = c.total + 1 := by
  cases op <;> rfl

/-- The counters' sum rises with the total (R35, R193). -/
theorem Stats.sum_bump (c : Stats) (op : Opcode) : (c.bump op).sum = c.sum + 1 := by
  cases op <;> simp [Stats.sum, Opcode.all, Stats.bump, Stats.count] <;> omega

/-! The history buffer. -/

/-- `append` has a meaning exactly at the tail (R162, U2). -/
theorem History.append_isSome (cap : Nat) (e : Snapshot) (h : History) :
    (h.append cap e).isSome = true ↔ h.newer = [] := by
  cases hn : h.newer <;> simp [History.append, hn]

/-- All that `append` does (R162, R163). -/
theorem History.append_spec {cap : Nat} {e : Snapshot} {h h' : History} (ha : h.append cap e = some h') :
    h.newer = [] ∧ h'.now = e ∧ h'.newer = [] ∧
      (h.size < cap ∧ h'.older = h.now :: h.older ∨ cap ≤ h.size ∧ h'.older = (h.now :: h.older).dropLast) := by
  unfold History.append at ha
  split at ha
  · rename_i hn
    simp only [Option.some.injEq] at ha
    subst ha
    refine ⟨hn, rfl, rfl, ?_⟩
    simp only [History.size, hn, List.length_cons, List.length_nil]
    split_ifs with hc
    · exact .inr ⟨by omega, rfl⟩
    · exact .inl ⟨by omega, rfl⟩
  · cases ha

/-- At the tail `append` gives this history (R162). -/
theorem History.append_at_tail (cap : Nat) (e : Snapshot) {h : History} (hn : h.newer = []) :
    h.append cap e =
      some ⟨if h.older.length + 2 > cap then (h.now :: h.older).dropLast else h.now :: h.older, e, []⟩ := by
  simp only [History.append, hn, List.length_cons]

/-- All that `advance` does (R164): the entries stay and the cursor moves one later. -/
theorem State.advance_spec {s t : State} (h : s.advance = some t) :
    ∃ e rest, s.hist.newer = e :: rest ∧
      t = { s with hist := ⟨s.hist.now :: s.hist.older, e, rest⟩, mem := redoPatch e.patch s.mem } := by
  unfold State.advance History.advance at h
  cases hn : s.hist.newer with
  | nil => simp [hn] at h
  | cons e rest =>
    simp only [hn, Option.some.injEq] at h
    exact ⟨e, rest, rfl, h.symm⟩

/-- `advance` has no meaning exactly at the tail (R164, U2). -/
theorem State.advance_eq_none {s : State} : s.advance = none ↔ s.hist.newer = [] := by
  unfold State.advance History.advance
  cases hn : s.hist.newer <;> simp

/-- All that `rewind` does (R165). -/
theorem State.rewind_spec (s : State) :
    (s.hist.older = [] ∧ s.rewind = s) ∨
      ∃ e rest, s.hist.older = e :: rest ∧
        s.rewind = { s with hist := ⟨rest, e, s.hist.now :: s.hist.newer⟩, mem := undoPatch s.hist.now.patch s.mem } := by
  cases ho : s.hist.older with
  | nil => exact .inl ⟨rfl, by simp [State.rewind, ho]⟩
  | cons e rest => exact .inr ⟨e, rest, rfl, by simp [State.rewind, History.rewind, ho]⟩

/-- What any number of rewinds leaves alone (R190: only the cursor and memory move). -/
theorem State.rewindTimes_keeps (k : Nat) (s : State) :
    (s.rewindTimes k).setup = s.setup ∧ (s.rewindTimes k).input = s.input ∧ (s.rewindTimes k).running = s.running ∧
      (s.rewindTimes k).halt = s.halt ∧ (s.rewindTimes k).bp = s.bp ∧ (s.rewindTimes k).stats = s.stats ∧
      (s.rewindTimes k).arrivals = s.arrivals := by
  induction k generalizing s with
  | zero => simp [State.rewindTimes]
  | succ k ih =>
    have h := ih s.rewind
    rcases s.rewind_spec with ⟨-, hr⟩ | ⟨e, rest, -, hr⟩
    · rw [hr] at h; rw [State.rewindTimes, hr]; exact h
    · rw [State.rewindTimes, hr]; rw [hr] at h; exact h

/-- Any number of rewinds keeps what one rewind keeps. -/
theorem State.rewindTimes_induct {P : State → Prop} (hstep : ∀ s, P s → P s.rewind) :
    ∀ k s, P s → P (s.rewindTimes k)
  | 0, _, h => h
  | k + 1, s, h => State.rewindTimes_induct hstep k s.rewind (hstep s h)

/-! Breakpoints. -/

/-- The set after `SET_BP` (R192). -/
theorem mem_insertBp (a b : Word) (l : List Word) : b ∈ insertBp a l ↔ b = a ∨ b ∈ l := by
  induction l with
  | nil => simp [insertBp]
  | cons c rest ih =>
    rw [insertBp]
    split_ifs with h1 h2
    · simp
    · subst h2; simp
    · rw [List.mem_cons, ih, List.mem_cons]; tauto

/-- The set after `CLR_BP` (R192). -/
theorem mem_removeBp (a b : Word) (l : List Word) : b ∈ removeBp a l ↔ b ≠ a ∧ b ∈ l := by
  induction l with
  | nil => simp [removeBp]
  | cons c rest ih =>
    rw [removeBp]
    split_ifs with h
    · subst h; rw [ih, List.mem_cons]
      constructor
      · exact fun h => ⟨h.1, .inr h.2⟩
      · exact fun h => ⟨h.1, h.2.resolve_left h.1⟩
    · rw [List.mem_cons, ih, List.mem_cons]
      constructor
      · rintro (rfl | h') <;> [exact ⟨fun h' => h h'.symm, .inl rfl⟩; exact ⟨h'.1, .inr h'.2⟩]
      · rintro ⟨h1, rfl | h2⟩ <;> [exact .inl rfl; exact .inr ⟨h1, h2⟩]

/-- `SET_BP` keeps the list canonical. -/
theorem insertBp_rising {l : List Word} (h : risingBp l) (a : Word) : risingBp (insertBp a l) := by
  induction l with
  | nil => simp [insertBp, risingBp]
  | cons c rest ih =>
    rw [risingBp, List.pairwise_cons] at h
    rw [insertBp]
    split_ifs with h1 h2
    · rw [risingBp, List.pairwise_cons, List.pairwise_cons]
      refine ⟨fun b hb => ?_, h⟩
      rcases List.mem_cons.1 hb with rfl | hb
      · exact h1
      · exact h1.trans (h.1 b hb)
    · rw [risingBp, List.pairwise_cons]; exact h
    · rw [risingBp, List.pairwise_cons]
      refine ⟨fun b hb => ?_, ih h.2⟩
      rcases (mem_insertBp a b rest).1 hb with rfl | hb
      · have : c.toNat ≠ b.toNat := fun e => h2 (BitVec.eq_of_toNat_eq e.symm)
        omega
      · exact h.1 b hb

/-- `CLR_BP` keeps the list canonical. -/
theorem removeBp_rising {l : List Word} (h : risingBp l) (a : Word) : risingBp (removeBp a l) := by
  induction l with
  | nil => simp [removeBp, risingBp]
  | cons c rest ih =>
    rw [risingBp, List.pairwise_cons] at h
    rw [removeBp]
    split_ifs
    · exact ih h.2
    · rw [risingBp, List.pairwise_cons]
      exact ⟨fun b hb => h.1 b ((mem_removeBp a b rest).1 hb).2, ih h.2⟩

/-! The end of an instruction. -/

/-- Retiring an instruction answers a next state exactly at the tail; it never faults. -/
theorem State.retire_cases (s : State) (op : Opcode) (e : Snapshot) :
    (∃ h, s.hist.append s.setup.capacity e = some h ∧
        s.retire op e = .next ({ s with hist := h }.countOne op)) ∨
      (s.hist.newer ≠ [] ∧ s.retire op e = .refused .appendOffTail) := by
  cases ha : s.hist.append s.setup.capacity e with
  | some h => exact .inl ⟨h, rfl, by simp [State.retire, ha]⟩
  | none =>
    refine .inr ⟨fun hn => ?_, by simp [State.retire, ha]⟩
    simp [History.append_at_tail _ _ hn] at ha

/-- All that retiring an instruction does (R184, R162, R163, R193). -/
theorem State.retire_spec {s t : State} {op : Opcode} {e : Snapshot} (h : s.retire op e = .next t) :
    ∃ hist, s.hist.append s.setup.capacity e = some hist ∧ t = ({ s with hist := hist }.countOne op) := by
  rcases s.retire_cases op e with ⟨hist, ha, hr⟩ | ⟨-, hr⟩
  · rw [hr] at h; exact ⟨hist, ha, by injection h with h; exact h.symm⟩
  · rw [hr] at h; cases h

/-- At the tail an instruction retires. -/
theorem State.retire_at_tail {s : State} (hn : s.hist.newer = []) (op : Opcode) (e : Snapshot) :
    ∃ hist, s.hist.append s.setup.capacity e = some hist ∧
      s.retire op e = .next ({ s with hist := hist }.countOne op) := by
  rcases s.retire_cases op e with h | ⟨h, -⟩
  · exact h
  · exact absurd hn h

@[simp] theorem State.haltWith_eq (s : State) (r : HaltReason) : s.haltWith r = .next (s.takeHalt r) := rfl

/-- What `inputPop` answers (R152). -/
theorem inputPop_eq_some {input : Option (List Byte)} {b : Byte} {rest : List Byte} :
    inputPop input = some (b, rest) ↔ input = some (b :: rest) := by
  rcases input with _ | _ | ⟨c, l⟩ <;> simp [inputPop]

theorem inputPop_eq_none {input : Option (List Byte)} : inputPop input = none ↔ input = none ∨ input = some [] := by
  rcases input with _ | _ | ⟨c, l⟩ <;> simp [inputPop]

end Sys2Proof.Machine
end

