-- ==== Sys2Proof/Laws/Exec.lean ====
section
/-! SUPPORT. What any execution of any instruction can do, said once: it halts with the one reason it can raise, or it
retires a next snapshot from a state that differs from its own in memory and stream alone. -/

namespace Sys2Proof.Machine

/-! The four instructions that can halt, each as one choice between retiring and halting, in the library's own words. -/

theorem exec_lw (rs rt : RegIx) (imm : BitVec 16) (s : State) :
    exec (.lw rs rt imm) s =
      if (s.now.readX rs + imm.signExtend 32).toNat / 4 < s.setup.memWords then
        s.retire .lw
          (s.now.fallThrough.writeX rt (s.mem.readWord ((s.now.readX rs + imm.signExtend 32).toNat / 4)))
      else .next (s.takeHalt .outOfRange) := by
  rw [← immSigned_eq, ← wordIndex_eq]
  exact if_congr inBounds_iff rfl rfl

theorem exec_swo (rs rt rd : RegIx) (s : State) :
    exec (.swo rs rt rd) s =
      if (s.now.readX rt + s.now.readX rd).toNat / 4 < s.setup.memWords then
        (s.storeWord ((s.now.readX rt + s.now.readX rd).toNat / 4) (s.now.readX rs)).retire .swo
          (s.now.fallThrough.withPatch ⟨(s.now.readX rt + s.now.readX rd).toNat / 4,
            s.mem.readWord ((s.now.readX rt + s.now.readX rd).toNat / 4), s.now.readX rs⟩)
      else .next (s.takeHalt .outOfRange) := by
  rw [← wordIndex_eq]
  exact if_congr inBounds_iff rfl rfl

theorem exec_assert (rs : RegIx) (imm : BitVec 16) (s : State) :
    exec (.assert rs imm) s =
      if s.now.readX rs = imm.signExtend 32 then s.retire .assert s.now.fallThrough
      else .next (s.takeHalt .assertionFailed) := by
  rw [← immSigned_eq]
  exact if_congr samePattern_iff rfl rfl

theorem exec_charIn_cons (rd : RegIx) {s : State} {b : Byte} {rest : List Byte} (h : s.input = some (b :: rest)) :
    exec (.charIn rd) s =
      (s.setInput rest).retire .charIn (s.now.fallThrough.writeX rd (byteToWord b)) := by
  change execCharIn rd s = _
  rw [execCharIn, inputPop_eq_some.2 h]

theorem exec_charIn_none (rd : RegIx) {s : State} (h : inputPop s.input = none) :
    exec (.charIn rd) s = .next (s.takeHalt .inputExhausted) := by
  change execCharIn rd s = _
  rw [execCharIn, h]; rfl

/-- The one halt reason each instruction can raise (R206). -/
def CanRaise (i : Instr) (r : HaltReason) : Prop :=
  (r = .outOfRange ∧ (i.opcode = .lw ∨ i.opcode = .swo)) ∨ (r = .assertionFailed ∧ i.opcode = .assert) ∨
    (r = .inputExhausted ∧ i.opcode = .charIn)

/-- What the snapshot `e` that `i` retires, and the state `s'` it retires it from, have in common with the state `s` it
started in. -/
structure RetiresFrom (i : Instr) (s s' : State) (e : Snapshot) : Prop where
  hist : s'.hist = s.hist
  setup : s'.setup = s.setup
  stats : s'.stats = s.stats
  bp : s'.bp = s.bp
  running : s'.running = s.running
  halt : s'.halt = s.halt
  arrivals : s'.arrivals = s.arrivals
  /-- Memory is written by a store alone, at the index its operands give, in bounds, and with its patch (R54). -/
  store : (storeIndex i s = none ∧ e.patch = none ∧ s'.mem = s.mem) ∨
    ∃ idx v, storeIndex i s = some idx ∧ idx < s.setup.memWords ∧
      e.patch = some ⟨idx, s.mem.readWord idx, v⟩ ∧ s'.mem = s.mem.writeWord idx v
  input : i.opcode ≠ .charIn → s'.input = s.input
  x : ∀ r, i.destX ≠ some r → e.readX r = s.hist.now.readX r
  f : ∀ r, i.destF ≠ some r → e.readF r = s.hist.now.readF r
  hiLo : i.opcode ≠ .mult → e.hi = s.hist.now.hi ∧ e.lo = s.hist.now.lo
  aligned : s.hist.now.pc.toNat % 4 = 0 → e.pc.toNat % 4 = 0

/-- An instruction that touches neither memory nor the stream retires from its own state. -/
theorem RetiresFrom.same {i : Instr} {s : State} {e : Snapshot} (hi : storeIndex i s = none) (hp : e.patch = none)
    (hx : ∀ r, i.destX ≠ some r → e.readX r = s.hist.now.readX r)
    (hf : ∀ r, i.destF ≠ some r → e.readF r = s.hist.now.readF r)
    (hl : i.opcode ≠ .mult → e.hi = s.hist.now.hi ∧ e.lo = s.hist.now.lo)
    (ha : s.hist.now.pc.toNat % 4 = 0 → e.pc.toNat % 4 = 0) : RetiresFrom i s s e :=
  ⟨rfl, rfl, rfl, rfl, rfl, rfl, rfl, .inl ⟨hi, hp, rfl⟩, fun _ => rfl, hx, hf, hl, ha⟩

/-- All that executing an instruction can do where it answers a next state. -/
theorem exec_cases {i : Instr} {s t : State} (h : exec i s = .next t) :
    (∃ r, CanRaise i r ∧ t = s.takeHalt r) ∨
      ∃ s' e, RetiresFrom i s s' e ∧ s'.retire i.opcode e = .next t := by
  cases i with
  | j addr =>
    refine .inr ⟨s, _, ?_, h⟩
    exact .same rfl rfl (fun _ _ => rfl) (fun _ _ => rfl) (fun _ => ⟨rfl, rfl⟩) (fun _ => jumpTarget_aligned _ _)
  | beq rs rt imm =>
    refine .inr ⟨s, _, ?_, h⟩
    split_ifs
    · exact .same rfl rfl (fun _ _ => rfl) (fun _ _ => rfl) (fun _ => ⟨rfl, rfl⟩) (branchTarget_aligned · _)
    · exact .same rfl rfl (fun _ _ => rfl) (fun _ _ => rfl) (fun _ => ⟨rfl, rfl⟩) nextPc_aligned
  | addi rs rt imm =>
    refine .inr ⟨s, _, ?_, h⟩
    refine .same rfl rfl (fun r hr => ?_) (fun _ _ => rfl) (fun _ => ⟨rfl, rfl⟩) nextPc_aligned
    simp_all [Instr.destX]
  | lui rt imm =>
    refine .inr ⟨s, _, ?_, h⟩
    refine .same rfl rfl (fun r hr => ?_) (fun _ _ => rfl) (fun _ => ⟨rfl, rfl⟩) nextPc_aligned
    simp_all [Instr.destX]
  | mult rs rt =>
    refine .inr ⟨s, _, ?_, h⟩
    exact .same rfl rfl (fun _ _ => rfl) (fun _ _ => rfl) (absurd rfl) nextPc_aligned
  | lw rs rt imm =>
    rw [exec_lw] at h
    split_ifs at h
    · refine .inr ⟨s, _, ?_, h⟩
      refine .same rfl rfl (fun r hr => ?_) (fun _ _ => rfl) (fun _ => ⟨rfl, rfl⟩) nextPc_aligned
      simp_all [Instr.destX]
    · injection h with h; exact .inl ⟨_, .inl ⟨rfl, .inl rfl⟩, h.symm⟩
  | swo rs rt rd =>
    rw [exec_swo] at h
    split_ifs at h with hb
    · refine .inr ⟨_, _, ?_, h⟩
      exact ⟨rfl, rfl, rfl, rfl, rfl, rfl, rfl, .inr ⟨_, _, congrArg some (wordIndex_eq _), hb, rfl, rfl⟩, fun _ => rfl,
        fun _ _ => rfl, fun _ _ => rfl, fun _ => ⟨rfl, rfl⟩, nextPc_aligned⟩
    · injection h with h; exact .inl ⟨_, .inl ⟨rfl, .inr rfl⟩, h.symm⟩
  | fsub rs rt rd =>
    refine .inr ⟨s, _, ?_, h⟩
    refine .same rfl rfl (fun _ _ => rfl) (fun r hr => ?_) (fun _ => ⟨rfl, rfl⟩) nextPc_aligned
    simp_all [Instr.destF]
  | fabs rs rd =>
    refine .inr ⟨s, _, ?_, h⟩
    refine .same rfl rfl (fun _ _ => rfl) (fun r hr => ?_) (fun _ => ⟨rfl, rfl⟩) nextPc_aligned
    simp_all [Instr.destF]
  | ftoi rs rd =>
    refine .inr ⟨s, _, ?_, h⟩
    refine .same rfl rfl (fun r hr => ?_) (fun _ _ => rfl) (fun _ => ⟨rfl, rfl⟩) nextPc_aligned
    simp_all [Instr.destX]
  | assert rs imm =>
    rw [exec_assert] at h
    split_ifs at h
    · refine .inr ⟨s, _, ?_, h⟩
      exact .same rfl rfl (fun _ _ => rfl) (fun _ _ => rfl) (fun _ => ⟨rfl, rfl⟩) nextPc_aligned
    · injection h with h; exact .inl ⟨_, .inr (.inl ⟨rfl, rfl⟩), h.symm⟩
  | charIn rd =>
    cases hp : inputPop s.input with
    | none =>
      rw [exec_charIn_none rd hp] at h
      injection h with h; exact .inl ⟨_, .inr (.inr ⟨rfl, rfl⟩), h.symm⟩
    | some p =>
      rw [exec_charIn_cons rd (inputPop_eq_some.1 hp)] at h
      refine .inr ⟨_, _, ?_, h⟩
      refine ⟨rfl, rfl, rfl, rfl, rfl, rfl, rfl, .inl ⟨rfl, rfl, rfl⟩, absurd rfl, fun r hr => ?_,
        fun _ _ => rfl, fun _ => ⟨rfl, rfl⟩, nextPc_aligned⟩
      simp_all [Instr.destX]

/-- An execution reads the current snapshot, the configuration, memory and the stream, and nothing else: two states that
agree on these halt alike, or retire one snapshot with one memory and one stream. -/
theorem exec_reads (i : Instr) {s u : State} (hn : u.hist.now = s.hist.now) (hc : u.setup = s.setup)
    (hm : u.mem = s.mem) (hi : u.input = s.input) :
    (∃ r, exec i s = .next (s.takeHalt r) ∧ exec i u = .next (u.takeHalt r)) ∨
      ∃ m inp e, exec i s = ({ s with mem := m, input := inp } : State).retire i.opcode e ∧
        exec i u = ({ u with mem := m, input := inp } : State).retire i.opcode e := by
  obtain ⟨setup, ⟨older, now, newer⟩, mem, input, running, halt, bp, stats, arrivals⟩ := s
  obtain ⟨setup', ⟨older', now', newer'⟩, mem', input', running', halt', bp', stats', arrivals'⟩ := u
  obtain rfl : now' = now := hn
  obtain rfl : setup' = setup := hc
  obtain rfl : mem' = mem := hm
  obtain rfl : input' = input := hi
  cases i with
  | lw rs rt imm =>
    by_cases h : (now'.readX rs + imm.signExtend 32).toNat / 4 < setup'.memWords
    · exact .inr ⟨mem', input', _, (exec_lw ..).trans (if_pos h), (exec_lw ..).trans (if_pos h)⟩
    · exact .inl ⟨_, (exec_lw ..).trans (if_neg h), (exec_lw ..).trans (if_neg h)⟩
  | swo rs rt rd =>
    by_cases h : (now'.readX rt + now'.readX rd).toNat / 4 < setup'.memWords
    · exact .inr ⟨_, input', _, (exec_swo ..).trans (if_pos h), (exec_swo ..).trans (if_pos h)⟩
    · exact .inl ⟨_, (exec_swo ..).trans (if_neg h), (exec_swo ..).trans (if_neg h)⟩
  | assert rs imm =>
    by_cases h : now'.readX rs = imm.signExtend 32
    · exact .inr ⟨mem', input', _, (exec_assert ..).trans (if_pos h), (exec_assert ..).trans (if_pos h)⟩
    · exact .inl ⟨_, (exec_assert ..).trans (if_neg h), (exec_assert ..).trans (if_neg h)⟩
  | charIn rd =>
    cases h : inputPop input' with
    | none => exact .inl ⟨_, exec_charIn_none rd h, exec_charIn_none rd h⟩
    | some p =>
      have h := inputPop_eq_some.1 h
      exact .inr ⟨mem', _, _, exec_charIn_cons rd h, exec_charIn_cons rd h⟩
  | _ => exact .inr ⟨mem', input', _, rfl, rfl⟩

end Sys2Proof.Machine
end

