-- ==== Sys2Proof/Laws/Numerics.lean ====
section
/-! SUPPORT. What the two configuration functions of the numerics can be (R7, R140, R141): the value of each by cases, and
that the configurations range over every function the spec allows. -/

namespace Sys2Proof.Machine

/-- Where the configuration lists nothing, `fsub32` is the intended value (R140). -/
theorem fsub32_of_unlisted {c : Setup} {a b : Word} (h : fsubListed c a b = none) : fsub32 c a b = fsub32Intended a b := by
  rw [fsub32, h, Option.getD_none]

/-- Where the configuration lists a result, `fsub32` is that result (R140). -/
theorem fsub32_of_listed {c : Setup} {a b v : Word} (h : fsubListed c a b = some v) : fsub32 c a b = v := by
  rw [fsub32, h, Option.getD_some]

/-- R141's value, whatever the configuration. -/
theorem ftoi32_of_convertible (c : Setup) {a : Word} (h : F32.convertible a = true) :
    ftoi32 c a = BitVec.ofInt 32 (F32.trunc a) := if_pos h

/-- Of an operand R141 states no value for, the configuration's result or the free value. -/
theorem ftoi32_of_not_convertible (c : Setup) {a : Word} (h : F32.convertible a = false) :
    ftoi32 c a = (ftoiListed c a).getD (Config.ftoiFree a) := if_neg (by simp [h])

/-- A list of all points of a function finds, for each key, the point of that key. -/
theorem find?_map_univ {α β : Type} [Fintype α] (mk : α → β) (key : β → α → Bool)
    (hkey : ∀ x y, key (mk x) y = true ↔ x = y) (y : α) :
    ((Finset.univ : Finset α).toList.map mk).find? (fun p => key p y) = some (mk y) := by
  cases h : ((Finset.univ : Finset α).toList.map mk).find? (fun p => key p y) with
  | none =>
    rw [List.find?_eq_none] at h
    exact absurd ((hkey y y).2 rfl) (h _ (List.mem_map_of_mem (by simp)))
  | some p =>
    obtain ⟨x, -, rfl⟩ := List.mem_map.1 (List.mem_of_find?_eq_some h)
    rw [(hkey x y).1 (by simpa using List.find?_some h)]

/-- "The model assumes of it only that it depends on its two operands alone" (R140): every function of two patterns is the
`fsub32` of some configuration, whatever its other parameters are. -/
theorem exists_setup_fsub32_eq (g : Word → Word → Word) :
    ∃ l : List FsubPoint, ∀ (c : Setup) (a b : Word), fsub32 { c with fsub := l } a b = g a b := by
  have : Fintype Word := Fintype.ofEquiv (Fin (2 ^ 32)) BitVec.equivFin.toEquiv.symm
  refine ⟨(Finset.univ : Finset (Word × Word)).toList.map fun x => ⟨x.1, x.2, g x.1 x.2⟩, fun c a b => ?_⟩
  apply fsub32_of_listed
  have h := find?_map_univ (fun x : Word × Word => FsubPoint.mk x.1 x.2 (g x.1 x.2)) (fun p y => p.a == y.1 && p.b == y.2)
    (by simp [Prod.ext_iff]) (a, b)
  rw [fsubListed, h, Option.map_some]

/-- Every function of a pattern that has R141's value where R141 states one is the `ftoi32` of some configuration, whatever
its other parameters are. -/
theorem exists_setup_ftoi32_eq (g : Word → Word)
    (hg : ∀ a, F32.convertible a = true → g a = BitVec.ofInt 32 (F32.trunc a)) :
    ∃ l : List FtoiPoint, ∀ (c : Setup) (a : Word), ftoi32 { c with ftoi := l } a = g a := by
  have : Fintype Word := Fintype.ofEquiv (Fin (2 ^ 32)) BitVec.equivFin.toEquiv.symm
  refine ⟨(Finset.univ : Finset Word).toList.map fun a => ⟨a, g a⟩, fun c a => ?_⟩
  have h := find?_map_univ (fun x : Word => FtoiPoint.mk x (g x)) (fun p y => p.a == y) (by simp) a
  cases ha : F32.convertible a with
  | true => rw [ftoi32_of_convertible _ ha, hg a ha]
  | false => rw [ftoi32_of_not_convertible _ ha, ftoiListed, h, Option.map_some, Option.getD_some]

end Sys2Proof.Machine
end

