-- ==== Sys2Proof/Laws/PerInstr.lean ====
section
/-! SUPPORT. The family EncodedOpcode: every encoded instruction carries, in its top six bits, the value its map gives its
opcode, so that dispatch on the opcode alone (R78, R99) finds it. One lemma per constructor. -/

namespace Sys2Proof.Laws.EncodedOpcode

/-- Under every opcode map the encoded instruction's opcode field is its own opcode's value. -/
def Statement (i : Instr) : Prop := ∀ m : OpcodeMap, opcodeBits (encode m i) = m.code i.opcode

theorem j (addr : BitVec 26) : Statement (.j addr) := fun _ => opcodeBits_encodeJ _ _

theorem beq (rs rt : RegIx) (imm : BitVec 16) : Statement (.beq rs rt imm) := fun _ => opcodeBits_encodeI _ _

theorem addi (rs rt : RegIx) (imm : BitVec 16) : Statement (.addi rs rt imm) := fun _ => opcodeBits_encodeI _ _

theorem lui (rt : RegIx) (imm : BitVec 16) : Statement (.lui rt imm) := fun _ => opcodeBits_encodeI _ _

theorem mult (rs rt : RegIx) : Statement (.mult rs rt) := fun _ => opcodeBits_encodeR _ _

theorem lw (rs rt : RegIx) (imm : BitVec 16) : Statement (.lw rs rt imm) := fun _ => opcodeBits_encodeI _ _

theorem swo (rs rt rd : RegIx) : Statement (.swo rs rt rd) := fun _ => opcodeBits_encodeR _ _

theorem fsub (rs rt rd : RegIx) : Statement (.fsub rs rt rd) := fun _ => opcodeBits_encodeR _ _

theorem fabs (rs rd : RegIx) : Statement (.fabs rs rd) := fun _ => opcodeBits_encodeR _ _

theorem ftoi (rs rd : RegIx) : Statement (.ftoi rs rd) := fun _ => opcodeBits_encodeR _ _

theorem assert (rs : RegIx) (imm : BitVec 16) : Statement (.assert rs imm) := fun _ => opcodeBits_encodeI _ _

theorem charIn (rd : RegIx) : Statement (.charIn rd) := fun _ => opcodeBits_encodeR _ _

end Sys2Proof.Laws.EncodedOpcode
end

