-- ==== Sys2Proof/Laws/Step.lean ====
section
/-! SUPPORT. What one iteration, one boundary and one step can do, said once. -/

namespace Sys2Proof.Machine

theorem State.fetch_eq (s : State) : s.fetch = s.setup.code[s.hist.now.pc.toNat / 4]? := by
  rw [State.fetch, wordIndex_eq]

/-- An iteration whose word decodes to an instruction, at the tail: fresh execution (R184). -/
theorem iterate_fresh {s : State} {w : Word} {i : Instr} (hf : s.fetch = some w)
    (hd : decode s.setup.opcodes w = .instr i) (hn : s.hist.newer = []) : iterate s = exec i s := by
  simp only [iterate, hf, hd, replay, State.advance_eq_none.2 hn]

/-- An iteration whose word decodes to an instruction, before the tail: replay (R185). -/
theorem iterate_replay {s u : State} {w : Word} {i : Instr} (hf : s.fetch = some w)
    (hd : decode s.setup.opcodes w = .instr i) (ha : s.advance = some u) : iterate s = .next (u.countOne i.opcode) := by
  simp only [iterate, hf, hd, replay, ha]

/-- An iteration whose fetch is outside the code image (R182, R202). -/
theorem iterate_outside {s : State} (hf : s.fetch = none) :
    iterate s = .next (s.takeHalt .programCounterOutOfRange) := by
  simp only [iterate, hf, State.haltWith_eq]

/-- An iteration whose word has an unknown opcode (R183, R201). -/
theorem iterate_unknown {s : State} {w : Word} {bits : BitVec 6} (hf : s.fetch = some w)
    (hd : decode s.setup.opcodes w = .unknownOpcode bits) : iterate s = .next (s.takeHalt .unknownOpcode) := by
  simp only [iterate, hf, hd, State.haltWith_eq]

/-- All that an iteration can do where it answers a next state (R181-R185, R206). -/
theorem iterate_cases {s t : State} (h : iterate s = .next t) :
    (∃ r, t = s.takeHalt r) ∨
      ∃ w i, s.fetch = some w ∧ decode s.setup.opcodes w = .instr i ∧
        ((∃ u, s.advance = some u ∧ t = u.countOne i.opcode) ∨
          (s.hist.newer = [] ∧ ∃ s' e, RetiresFrom i s s' e ∧ s'.retire i.opcode e = .next t)) := by
  cases hf : s.fetch with
  | none =>
    rw [iterate_outside hf] at h
    injection h with h; exact .inl ⟨_, h.symm⟩
  | some w =>
    cases hd : decode s.setup.opcodes w with
    | unknownOpcode bits =>
      rw [iterate_unknown hf hd] at h
      injection h with h; exact .inl ⟨_, h.symm⟩
    | instr i =>
      cases ha : s.advance with
      | some u =>
        rw [iterate_replay hf hd ha] at h
        injection h with h; exact .inr ⟨w, i, rfl, hd, .inl ⟨u, rfl, h.symm⟩⟩
      | none =>
        have hn := State.advance_eq_none.1 ha
        rw [iterate_fresh hf hd hn] at h
        rcases exec_cases h with ⟨r, -, hr⟩ | hr
        · exact .inl ⟨r, hr⟩
        · exact .inr ⟨w, i, rfl, hd, .inr ⟨hn, hr⟩⟩

/-- What any iteration leaves alone. -/
theorem iterate_keeps {s t : State} (h : iterate s = .next t) :
    t.setup = s.setup ∧ t.bp = s.bp ∧ t.arrivals = s.arrivals := by
  rcases iterate_cases h with ⟨r, rfl⟩ | ⟨w, i, -, -, ⟨u, ha, rfl⟩ | ⟨-, s', e, hr, h⟩⟩
  · exact ⟨rfl, rfl, rfl⟩
  · obtain ⟨e, rest, -, rfl⟩ := State.advance_spec ha
    exact ⟨rfl, rfl, rfl⟩
  · obtain ⟨hist, -, rfl⟩ := State.retire_spec h
    exact ⟨hr.setup, hr.bp, hr.arrivals⟩

/-- A boundary stops the run, or takes the next entry of the schedule, or both; it touches nothing else (R186, R187). -/
theorem boundary_spec (s : State) :
    ∃ running arrivals, boundary s = { s with running := running, arrivals := arrivals } ∧
      (running = false ∨ running = s.running ∧ s.halt = none) := by
  unfold boundary
  split_ifs with h1 h2
  · exact ⟨_, _, rfl, .inl rfl⟩
  · exact ⟨_, _, rfl, .inl rfl⟩
  · have h1 : s.halt = none := by simpa using h1
    split
    · exact ⟨_, _, rfl, .inl rfl⟩
    · exact ⟨_, _, rfl, .inr ⟨rfl, h1⟩⟩
    · exact ⟨_, _, rfl, .inr ⟨rfl, h1⟩⟩

/-- A step of a free run (R187). -/
theorem step_running {s : State} (hr : s.running = true) (hh : s.halt = none) : step s = freeRunStep s := by
  rw [step, engineStep, hr, hh]; rfl

/-- A step that awaits a command (R180). -/
theorem step_awaiting {s : State} (h : s.running = false ∨ s.halt ≠ none) : step s = awaitStep s := by
  rw [step, engineStep, if_neg]
  rcases h with h | h
  · simp [h]
  · simp [h]

/-- All that a step can do where it answers a next state: an iteration of a free run and its boundary, or nothing, or the
next entry of the schedule, taken with the rest of the schedule in place. -/
theorem step_cases {s t : State} (h : step s = .next t) :
    (s.running = true ∧ s.halt = none ∧ ∃ u, iterate s = .next u ∧ t = boundary u) ∨
      ((s.running = false ∨ s.halt ≠ none) ∧
        (s.arrivals = [] ∧ t = s ∨
          ∃ c rest, s.arrivals = c :: rest ∧
            (((c = none ∨ c = some .pause ∨ c = some .listBreakpoints ∨ c = some .help ∨
                c = some .step ∧ s.halt ≠ none) ∧ t = { s with arrivals := rest }) ∨
              (c = some .run ∧ s.halt = none ∧ t = { s with arrivals := rest, running := true }) ∨
              (c = some .run ∧ s.halt ≠ none ∧ t = { s with arrivals := rest }.fullReset) ∨
              (c = some .step ∧ s.halt = none ∧ iterate { s with arrivals := rest } = .next t) ∨
              (c = some .rewind ∧
                t = (({ s with arrivals := rest } : State).rewindTimes
                  (if s.halt = none then 1 else s.setup.haltedRewindSteps)).clearHalt) ∨
              (∃ a, c = some (.setBp a) ∧ t = { s with arrivals := rest, bp := insertBp a s.bp }) ∨
              (∃ a, c = some (.clrBp a) ∧ t = { s with arrivals := rest, bp := removeBp a s.bp })))) := by
  by_cases hrun : s.running = true ∧ s.halt = none
  · rw [step_running hrun.1 hrun.2, freeRunStep] at h
    refine .inl ⟨hrun.1, hrun.2, ?_⟩
    cases hi : iterate s with
    | next u => rw [hi] at h; injection h with h; exact ⟨u, rfl, h.symm⟩
    | fault r => rw [hi] at h; cases h
    | refused r => rw [hi] at h; cases h
  · have hrun : s.running = false ∨ s.halt ≠ none := by
      by_cases hh : s.halt = none
      · left; simpa [hh] using hrun
      · exact .inr hh
    refine .inr ⟨hrun, ?_⟩
    rw [step_awaiting hrun, awaitStep] at h
    split at h
    · rename_i ha; injection h with h; exact .inl ⟨ha, h.symm⟩
    · rename_i rest ha; injection h with h
      exact .inr ⟨_, rest, ha, .inl ⟨.inl rfl, h.symm⟩⟩
    · rename_i c rest ha
      refine .inr ⟨_, rest, ha, ?_⟩
      cases c with
      | run =>
        injection h with h; subst h
        by_cases hh : s.halt = none
        · exact .inr (.inl ⟨rfl, hh, by simp [runCommand, hh]⟩)
        · refine .inr (.inr (.inl ⟨rfl, hh, ?_⟩))
          rw [runCommand, if_pos]; exact Option.isSome_iff_ne_none.2 hh
      | step =>
        change stepCommand _ = _ at h
        by_cases hh : s.halt = none
        · rw [stepCommand, if_neg (by simp [hh])] at h
          exact .inr (.inr (.inr (.inl ⟨rfl, hh, h⟩)))
        · rw [stepCommand, if_pos (Option.isSome_iff_ne_none.2 hh)] at h
          injection h with h
          exact .inl ⟨.inr (.inr (.inr (.inr ⟨rfl, hh⟩))), h.symm⟩
      | rewind =>
        injection h with h; subst h
        refine .inr (.inr (.inr (.inr (.inl ⟨rfl, ?_⟩))))
        rw [rewindCommand]; cases s.halt <;> rfl
      | setBp a =>
        injection h with h
        exact .inr (.inr (.inr (.inr (.inr (.inl ⟨a, rfl, h.symm⟩)))))
      | clrBp a =>
        injection h with h
        exact .inr (.inr (.inr (.inr (.inr (.inr ⟨a, rfl, h.symm⟩)))))
      | pause => injection h with h; exact .inl ⟨.inr (.inl rfl), h.symm⟩
      | listBreakpoints => injection h with h; exact .inl ⟨.inr (.inr (.inl rfl)), h.symm⟩
      | help => injection h with h; exact .inl ⟨.inr (.inr (.inr (.inl rfl))), h.symm⟩

end Sys2Proof.Machine
end

