-- ==== Sys2Proof/Tests/Slice0.lean ====
section
/-! SUPPORT. Tests on fixed values, their expected results from spec/95_test_vectors.md (cited by section) or worked out by
hand from a rule; the smoke test of the well-formedness checks; and, for every statement with hypotheses, a state and operands
that meet them (the `test_witness_` theorems). -/

namespace Sys2Proof.Tests

open Sys2Proof.Machine

/-! Helpers. -/

/-- A register file with the listed registers set and all others zero. -/
def regs (l : List (Nat × Word)) : Vector Word 32 := Vector.ofFn fun i => (l.lookup i.val).getD 0

/-- A snapshot with these registers and an empty patch. -/
def snap (pc : Word) (x f : List (Nat × Word)) : Snapshot := { Snapshot.genesis with pc := pc, x := regs x, f := regs f }

/-- The machine of the spec's vectors (16 words of memory, no program) on one snapshot, with this memory and stream. -/
def on (e : Snapshot) (mem : Memory) (input : Option (List Byte)) : State :=
  { State.reset with hist := ⟨[], e, []⟩, mem := mem, input := input }

/-- The machine on one snapshot with general registers alone. -/
def onX (pc : Word) (x : List (Nat × Word)) : State := on (snap pc x []) [] none

/-- The next state of an outcome, if it is one. -/
def after : Host.Outcome State Fault Refusal → Option State
  | .next s => some s
  | .fault _ => none
  | .refused _ => none

/-- What is looked at in the next state of one execution. -/
def see {α : Type} (i : Instr) (s : State) (look : State → α) : Option α := (after (exec i s)).map look

/-- The code image of the spec's program P3. -/
def codeP3 : List Word := [0x2001002A, 0x20020008, 0x20030004, 0xBC221800, 0x8C04000C, 0x8C050040]

/-- The default setup with a program. -/
def withCode (code : List Word) : Setup := { Setup.default with code := code }

/-- P3 before its SWO, as a window of one entry. -/
def beforeStore : Snapshot := snap 12 [(1, 42), (2, 8), (3, 4)] []

/-- P3 after its SWO. -/
def afterStore : Snapshot := { beforeStore with pc := 16, patch := some ⟨3, 0, 42⟩ }

/-- An engine that has executed P3's SWO, with the entry before it still retained. -/
def stored : State :=
  { State.construct (withCode codeP3) none with hist := ⟨[beforeStore], afterStore, []⟩, mem := [(12, 42)] }

/-- The same engine after one REWIND: the SWO can be replayed. -/
def rewound : State := { stored with hist := ⟨[], beforeStore, [afterStore]⟩, mem := [] }

/-- An engine with this program at genesis, free-running. -/
def runningOn (code : List Word) : State := { State.construct (withCode code) none with running := true }

/-- An engine with this program at genesis, with one command of the host. -/
def commanded (code : List Word) (c : Command) : State :=
  { State.construct (withCode code) none with arrivals := [some c] }

/-- An engine that has halted, with these commands of the host. -/
def haltedOn (r : HaltReason) (arrivals : List (Option Command)) : State :=
  { stored with halt := some r, arrivals := arrivals }

/-! The well-formedness checks, each with a term it refuses. -/

theorem test_wf_memory_order : Memory.wf [(4, 1), (8, 2)] = true ∧ Memory.wf [(8, 2), (4, 1)] = false ∧
    Memory.wf [(4, 1), (4, 2)] = false := by decide

theorem test_wf_memory_no_default_cell : Memory.wf [(4, 0)] = false := by decide

theorem test_wf_memory_within : Memory.within 16 [(63, 1)] = true ∧ Memory.within 16 [(64, 1)] = false := by decide

theorem test_wf_opcode_map :
    Config.opcodes.injective = true ∧ OpcodeMap.injective { Config.opcodes with swo := Config.opcodes.lw } = false := by
  decide

theorem test_wf_setup :
    Setup.default.wf = true ∧ Setup.wf { Setup.default with capacity := 1 } = false ∧
      Setup.wf { Setup.default with opcodes := { Config.opcodes with charIn := Config.opcodes.assert } } = false ∧
      Setup.wf { Setup.default with memInit := [(8, 2), (4, 1)] } = false ∧
      Setup.wf { Setup.default with memInit := [(64, 1)] } = false := by decide

/-- R22's convention: each of the five instructions that write a general register, with register 0 as its destination. -/
theorem test_wf_spares_reg_zero :
    Instr.sparesRegZero (.addi 1 0 0) = false ∧ Instr.sparesRegZero (.lui 0 1) = false ∧
      Instr.sparesRegZero (.lw 1 0 0) = false ∧ Instr.sparesRegZero (.ftoi 1 0) = false ∧
      Instr.sparesRegZero (.charIn 0) = false ∧ Instr.sparesRegZero (.addi 0 1 0) = true ∧
      Instr.sparesRegZero (.fabs 1 0) = true := by decide

/-! Decoding: words written out bit by bit from R72, R73, R74 and R79, opcode first, then the fields of the format. -/

theorem test_decode_j : decodeTableWord 32 0b000010_11111111111111111111111111 = some (.j 0x3FFFFFF) := by decide

theorem test_decode_beq : decodeTableWord 32 0b000100_00001_00010_1111111111111110 = some (.beq 1 2 0xFFFE) := by decide

theorem test_decode_addi : decodeTableWord 32 0b001000_00001_00010_0000000000000011 = some (.addi 1 2 3) := by decide

/-- `rs` is 31 and ignored. -/
theorem test_decode_lui : decodeTableWord 32 0b001111_11111_00011_0001001000110100 = some (.lui 3 0x1234) := by decide

/-- `rd`, `shamt` and `funct` are all ones and ignored. -/
theorem test_decode_mult : decodeTableWord 32 0b011000_00001_00010_11111_11111_111111 = some (.mult 1 2) := by decide

theorem test_decode_lw : decodeTableWord 32 0b100011_00000_00100_0000000000001100 = some (.lw 0 4 12) := by decide

theorem test_decode_swo : decodeTableWord 32 0b101111_00001_00010_00011_00000_000000 = some (.swo 1 2 3) := by decide

theorem test_decode_fsub : decodeTableWord 32 0b110001_00001_00010_00011_00000_000000 = some (.fsub 1 2 3) := by decide

/-- `rt` is 31 and ignored. -/
theorem test_decode_fabs : decodeTableWord 32 0b110010_00001_11111_00010_00000_000000 = some (.fabs 1 2) := by decide

theorem test_decode_ftoi : decodeTableWord 32 0b110011_00001_00000_00010_00000_000000 = some (.ftoi 1 2) := by decide

theorem test_decode_assert : decodeTableWord 32 0b111110_00011_00000_0000000000000111 = some (.assert 3 7) := by decide

/-- 2.7: the word of all ones is IN with `rd` 31. -/
theorem test_decode_in : decodeTableWord 32 0b111111_11111_11111_11111_11111_111111 = some (.charIn 31) := by decide

/-- 2.1, 2.7: opcode values 0 and 1 are no instruction's. -/
theorem test_decode_unknown :
    decode Config.opcodes 0x03FFFFFF = .unknownOpcode 0 ∧ decode Config.opcodes 0x04000000 = .unknownOpcode 1 := by decide

/-- 2.1. -/
theorem test_decoders :
    decodeR 0xBC221800 = ⟨1, 2, 3, 0, 0⟩ ∧ decodeR 0x000007FF = ⟨0, 0, 0, 31, 63⟩ ∧ decodeI 0x2041FFFF = ⟨2, 1, 0xFFFF⟩ ∧
      decodeJ 0x08000001 = ⟨1⟩ := by decide

/-- Part 3 and 2.2 to 2.6: instructions as the spec assembles them. -/
theorem test_encode :
    encode Config.opcodes (.swo 1 2 3) = 0xBC221800 ∧ encode Config.opcodes (.charIn 2) = 0xFC001000 ∧
      encode Config.opcodes (.lui 3 0x1234) = 0x3C031234 ∧ encode Config.opcodes (.ftoi 1 2) = 0xCC201000 ∧
      encode Config.opcodes (.j 1) = 0x08000001 ∧ encode Config.opcodes (.assert 2 6) = 0xF8400006 := by decide

/-! Each instruction, one execution (2.2 to 2.6). -/

theorem test_addi_wraps : see (.addi 1 1 1) (onX 0 [(1, 0xFFFFFFFF)]) (fun t => (t.now.readX 1, t.now.pc)) = some (0, 4) := by
  decide

theorem test_addi_writes_register_zero :
    see (.addi 1 0 0xFFFF) (onX 0 [(1, 9)]) (fun t => (t.now.readX 0, t.now.readX 1)) = some (8, 9) := by decide

theorem test_lui : see (.lui 3 0x1234) (onX 0 [(3, 0xFFFFFFFF)]) (fun t => t.now.readX 3) = some 0x12340000 := by decide

theorem test_mult_signed :
    see (.mult 1 2) (onX 0 [(1, 0x80000000), (2, 0xFFFFFFFF)]) (fun t => (t.now.hi, t.now.lo)) = some (0, 0x80000000) := by
  decide

theorem test_mult_high :
    see (.mult 1 2) (onX 0 [(1, 0x80000000), (2, 0x80000000)]) (fun t => (t.now.hi, t.now.lo)) = some (0x40000000, 0) := by
  decide

theorem test_beq_back : see (.beq 1 2 0xFFFE) (onX 0x10 [(1, 7), (2, 7)]) (fun t => t.now.pc) = some 8 := by decide

theorem test_beq_not_taken : see (.beq 1 2 2) (onX 0 [(1, 1)]) (fun t => t.now.pc) = some 4 := by decide

theorem test_j_keeps_top : see (.j 0x3FFFFFF) (onX 0x10000008 []) (fun t => t.now.pc) = some 0x1FFFFFFC := by decide

theorem test_j_top_of_memory : see (.j 2) (onX 0xF0000000 []) (fun t => t.now.pc) = some 0xF0000008 := by decide

/-- The low address bits are dropped: `ea` is 14. -/
theorem test_lw_low_bits :
    see (.lw 0 4 14) (on (snap 0 [] []) [(12, 42)] none) (fun t => (t.now.readX 4, t.now.patch)) = some (42, none) := by decide

/-- Source and destination are one register. -/
theorem test_lw_same_register :
    see (.lw 1 1 0) (on (snap 0 [(1, 8)] []) (Memory.writeWord [] 2 0xDEADBEEF) none) (fun t => t.now.readX 1) =
      some 0xDEADBEEF := by decide

theorem test_swo_patch :
    see (.swo 1 2 3) (on (snap 0 [(1, 42), (2, 8), (3, 7)] []) [(12, 5)] none) (fun t => (t.mem.readWord 3, t.now.patch)) =
      some (42, some ⟨3, 5, 42⟩) := by decide

/-- The address sum wraps. -/
theorem test_swo_wraps :
    see (.swo 1 2 3) (onX 0 [(1, 1), (2, 0xFFFFFFFC), (3, 8)]) (fun t => (t.mem, t.now.patch)) =
      some ([(4, 1)], some ⟨1, 0, 1⟩) := by decide

theorem test_fsub :
    see (.fsub 1 2 3) (on (snap 0 [] [(1, 0x40000000), (2, 0x40A00000)]) [] none) (fun t => t.now.readF 3) =
      some 0xC0400000 := by decide

/-- -0.0 minus +0.0 is -0.0. -/
theorem test_fsub_zero :
    see (.fsub 1 2 3) (on (snap 0 [] [(1, 0x80000000)]) [] none) (fun t => t.now.readF 3) = some 0x80000000 := by decide

/-- A NaN's other bits stay. -/
theorem test_fabs :
    see (.fabs 1 2) (on (snap 0 [] [(1, 0xFFC00001)]) [] none) (fun t => t.now.readF 2) = some 0x7FC00001 := by decide

theorem test_ftoi_truncates :
    see (.ftoi 1 2) (on (snap 0 [] [(1, 0xC0533333)]) [] none) (fun t => (t.now.readX 2, t.now.readF 1)) =
      some (0xFFFFFFFD, 0xC0533333) := by decide

theorem test_ftoi_least :
    see (.ftoi 1 2) (on (snap 0 [] [(1, 0xCF000000)]) [] none) (fun t => t.now.readX 2) = some 0x80000000 := by decide

/-- R7: another subtraction can be configured, at the operands it names alone; another conversion only where R141 states no
value (2^31 is out of range, 3.3 is not). -/
theorem test_numerics_configured :
    (let c := { Setup.default with fsub := [⟨1, 2, 7⟩], ftoi := [⟨0x4F000000, 9⟩, ⟨0x40533333, 9⟩] }
    fsub32 c 1 2 = 7 ∧ fsub32 c 0x40A00000 0x40000000 = 0x40400000 ∧ ftoi32 c 0x4F000000 = 9 ∧ ftoi32 c 0x40533333 = 3) := by
  decide

/-- S4. -/
theorem test_assert :
    see (.assert 3 7) (onX 0 [(3, 7)]) (fun t => (t.now.pc, t.halt)) = some (4, none) ∧
      see (.assert 3 7) (onX 0 [(3, 6)]) (fun t => (t.now.pc, t.halt, t.hist.cursor)) =
        some (0, some .assertionFailed, 0) := by decide

/-- The immediate is sign-extended. -/
theorem test_assert_sign :
    see (.assert 3 0xFFFF) (onX 0 [(3, 0x0000FFFF)]) (fun t => t.halt) = some (some .assertionFailed) := by decide

theorem test_in_zero_extends :
    see (.charIn 1) (on (snap 0 [(1, 0x12345678)] []) [] (some [0xFF])) (fun t => (t.now.readX 1, t.input)) =
      some (0x000000FF, some []) := by decide

theorem test_in_absent :
    see (.charIn 1) (onX 0 []) (fun t => (t.now.readX 1, t.halt)) = some (0, some .inputExhausted) := by decide

/-! The control loop and the history. -/

/-- The host's question: the placed word runs as the first instruction after reset. -/
theorem test_with_fetch_word :
    (after (step (State.reset.withFetchWord 32 0x20220003))).map (fun t => (t.now.readX 2, t.now.pc, t.stats.addi)) =
      some (3, 4, 1) := by decide

/-- 2.7: an empty image halts at the first fetch. -/
theorem test_step_outside :
    (after (step (commanded [] .step))).map (fun t => (t.halt, t.hist.size, t.stats.total)) =
      some (some .programCounterOutOfRange, 1, 0) := by decide

/-- P3, step 4 to step 5: the replay of the SWO. -/
theorem test_replay_store :
    (after (iterate rewound)).map (fun t => (t.hist, t.mem, t.stats.swo)) = some (stored.hist, [(12, 42)], 1) := by decide

/-- 2.8: `rewind` undoes the store. -/
theorem test_rewind_store : stored.rewind = rewound := by decide

/-- 2.8: with C = 2 and two entries, `append` drops the head. -/
theorem test_append_evicts :
    (⟨[Snapshot.genesis], beforeStore, []⟩ : History).append 2 afterStore = some ⟨[beforeStore], afterStore, []⟩ := by decide

/-- P2's variant: the breakpoint pauses after the step, and does not halt. -/
theorem test_breakpoint :
    (after (step { runningOn [0x10220002, 0, 0x10220002] with bp := [8] })).map (fun t => (t.running, t.halt, t.now.pc)) =
      some (false, none, 8) := by decide

/-! Witnesses: the hypotheses of each statement, met together. -/

theorem test_witness_ExtractBitsGivesTheSlice : (0 < 1 ∧ 1 ≤ 32) ∧ (31 < 32 ∧ 32 ≤ 32) ∧ (0 < 32 ∧ 32 ≤ 32) := by decide

theorem test_witness_SignExtendIsTwosComplement : (1 ≤ 1 ∧ 1 ≤ 32) ∧ (1 ≤ 32 ∧ 32 ≤ 32) := by decide

theorem test_witness_DecodeInvertsEncode : Config.opcodes.injective = true := by decide

/-- A MULT with two different values in its ignored fields. -/
theorem test_witness_IgnoredFieldsDoNotMatter :
    decode Config.opcodes 0x60220000 = .instr (.mult 1 2) ∧
      (0x6022FFFF : Word) &&& readMask .mult = 0x60220000 &&& readMask .mult := by decide

/-- The cursor at the tail is all that ADDI, LUI, MULT, BEQ, J, FSUB, FABS and FTOI ask for. -/
theorem test_witness_at_tail : State.reset.hist.newer = [] ∧ stored.hist.newer = [] := by decide

/-- BEQ on equal and on different patterns. -/
theorem test_witness_BeqBranchesOnEqualPatterns :
    afterStore.readX 1 = afterStore.readX 1 ∧ afterStore.readX 1 ≠ afterStore.readX 2 := by decide

/-- The last word of memory, by its last byte. -/
theorem test_witness_LwLoadsTheWord :
    stored.hist.newer = [] ∧ (stored.now.readX 3 + BitVec.signExtend 32 (59 : BitVec 16)).toNat / 4 = 15 ∧
      15 < stored.setup.memWords := by decide

theorem test_witness_SwoStoresTheWord :
    (onX 0 [(2, 60), (3, 3)]).hist.newer = [] ∧ (onX 0 [(2, 60), (3, 3)]).mem.wf = true ∧
      ((onX 0 [(2, 60), (3, 3)]).now.readX 2 + (onX 0 [(2, 60), (3, 3)]).now.readX 3).toNat / 4 <
        (onX 0 [(2, 60), (3, 3)]).setup.memWords := by decide

theorem test_witness_AssertPassesOnEquality :
    stored.hist.newer = [] ∧ stored.now.readX 1 = BitVec.signExtend 32 (42 : BitVec 16) := by decide

theorem test_witness_InReadsOneByte :
    (on (snap 0 [] []) [] (some [0x41, 0x42])).hist.newer = [] ∧
      (on (snap 0 [] []) [] (some [0x41, 0x42])).input = some (0x41 :: [0x42]) := by decide

/-- The first word past memory, for LW and for SWO. -/
theorem test_witness_LoadStoreHaltOutOfRange :
    (onX 0 []).setup.memWords = ((onX 0 []).now.readX 0 + BitVec.signExtend 32 (64 : BitVec 16)).toNat / 4 ∧
      (onX 0 [(2, 60), (3, 4)]).setup.memWords =
        ((onX 0 [(2, 60), (3, 4)]).now.readX 2 + (onX 0 [(2, 60), (3, 4)]).now.readX 3).toNat / 4 := by decide

theorem test_witness_AssertHaltsOnDifference : stored.now.readX 1 ≠ BitVec.signExtend 32 (43 : BitVec 16) := by decide

theorem test_witness_InHaltsWithoutInput :
    State.reset.input = none ∧ (on (snap 0 [] []) [] (some [])).input = some [] := by decide

/-- An execution that completes, and each of the three halts an instruction can raise. -/
theorem test_witness_EveryExecutionCompletesOrHalts :
    see (.j 1) State.reset (fun t => t.halt) = some none ∧
      see (.lw 0 1 64) State.reset (fun t => t.halt) = some (some .outOfRange) ∧
      see (.assert 0 1) State.reset (fun t => t.halt) = some (some .assertionFailed) ∧
      see (.charIn 0) State.reset (fun t => t.halt) = some (some .inputExhausted) := by decide

/-- A store, whose frame leaves out one word. -/
theorem test_witness_InstructionFrame :
    stored.mem.wf = true ∧ (see (.swo 1 2 3) stored (fun t => t.mem)).isSome = true ∧
      storeIndex (.swo 1 2 3) stored = some 3 := by decide

/-- One of the nine; LW; IN. -/
theorem test_witness_OnlyThreeTouchMemoryOrInput :
    Instr.opcode (.addi 1 2 3) ∉ [Opcode.lw, .swo, .charIn] ∧ (see (.addi 1 2 3) stored State.mem).isSome = true ∧
      Instr.opcode (.lw 0 4 12) ≠ .charIn ∧ (see (.lw 0 4 12) stored State.mem).isSome = true ∧
      (see (.charIn 1) (on (snap 0 [] []) [] (some [1])) State.mem).isSome = true := by decide

/-- The two outcomes: a next state at the tail, the refusal off it. -/
theorem test_witness_ExecStopsOnlyOffTheTail :
    (after (exec (.j 1) stored)).isSome = true ∧ rewound.hist.newer ≠ [] ∧
      (match exec (.j 1) rewound with | .refused .appendOffTail => true | _ => false) = true := by decide

/-- A store to word 3 and a load from byte 14, which is in it. -/
theorem test_witness_StoreThenLoadReadsTheStoredWord :
    stored.mem.wf = true ∧ stored.hist.newer = [] ∧
      (stored.now.readX 2 + stored.now.readX 3).toNat / 4 < stored.setup.memWords ∧
      (see (.swo 1 2 3) stored fun t => decide ((t.now.readX 0 + BitVec.signExtend 32 (14 : BitVec 16)).toNat / 4 =
        (stored.now.readX 2 + stored.now.readX 3).toNat / 4)) = some true := by decide

theorem test_witness_RegisterZeroConvention :
    Instr.sparesRegZero (.addi 1 2 3) = true ∧ (see (.addi 1 2 3) stored State.mem).isSome = true := by decide

/-- A free run and a STEP, each on an ADDI. -/
theorem test_witness_StepRunsTheDecodedInstruction :
    let r := runningOn [0x20220003]
    let c := commanded [0x20220003] .step
    r.setup.code[r.now.pc.toNat / 4]? = some 0x20220003 ∧ decode r.setup.opcodes 0x20220003 = .instr (.addi 1 2 3) ∧
      r.halt = none ∧ r.hist.newer = [] ∧ r.running = true ∧ (after (exec (.addi 1 2 3) r)).isSome = true ∧
      c.setup.code[c.now.pc.toNat / 4]? = some 0x20220003 ∧ c.halt = none ∧ c.hist.newer = [] ∧ c.running = false ∧
      c.arrivals = some .step :: [] := by decide

/-- The six cases: a halt; a breakpoint; a PAUSE; nothing arriving now; another command waiting; an empty schedule. -/
theorem test_witness_BoundaryOfAFreeRun :
    (haltedOn .unknownOpcode []).halt ≠ none ∧
      (stored.halt = none ∧ { stored with bp := [16] }.now.pc ∈ { stored with bp := [16] }.bp) ∧
      (stored.now.pc ∉ stored.bp ∧ { stored with arrivals := [some .pause] }.arrivals = some .pause :: []) ∧
      { stored with arrivals := [none] }.arrivals = none :: [] ∧
      (Command.run ≠ .pause ∧ { stored with arrivals := [some .run] }.arrivals = some .run :: []) ∧
      stored.arrivals = [] := by decide

theorem test_witness_BreakpointPausesAfterTheStep :
    (runningOn [0x20220003]).running = true ∧ (runningOn [0x20220003]).halt = none ∧
      (after (step (runningOn [0x20220003]))).map (fun t => t.halt) = some none := by decide

/-- The first index past the image, in a free run and by STEP. -/
theorem test_witness_FetchOutsideTheImageHalts :
    (runningOn []).setup.code.length = (runningOn []).now.pc.toNat / 4 ∧ (runningOn []).halt = none ∧
      (runningOn []).running = true ∧ (commanded [] .step).setup.code.length = (commanded [] .step).now.pc.toNat / 4 ∧
      (commanded [] .step).halt = none ∧ (commanded [] .step).running = false ∧
      (commanded [] .step).arrivals = some .step :: [] := by decide

theorem test_witness_UnknownOpcodeHalts :
    (runningOn [0x04000000]).setup.code[(runningOn [0x04000000]).now.pc.toNat / 4]? = some 0x04000000 ∧
      (Opcode.all.all fun op => (runningOn [0x04000000]).setup.opcodes.code op != (0x04000000 : Word).extractLsb' 26 6) = true ∧
      (runningOn [0x04000000]).halt = none ∧
      (runningOn [0x04000000]).running = true ∧
      (commanded [0x04000000] .step).setup.code[(commanded [0x04000000] .step).now.pc.toNat / 4]? = some 0x04000000 ∧
      (commanded [0x04000000] .step).halt = none ∧ (commanded [0x04000000] .step).running = false ∧
      (commanded [0x04000000] .step).arrivals = some .step :: [] := by decide

theorem test_witness_ReplayTakesTheStoredEntry :
    rewound.setup.code[rewound.now.pc.toNat / 4]? = some 0xBC221800 ∧
      decode rewound.setup.opcodes 0xBC221800 = .instr (.swo 1 2 3) ∧ rewound.hist.newer = afterStore :: [] ∧
      afterStore.patch = some ⟨3, 0, 42⟩ := by decide

/-- RUN not halted and RUN halted. -/
theorem test_witness_RunStartsOrResets :
    (commanded [] .run).running = false ∧ (commanded [] .run).arrivals = some .run :: [] ∧ (commanded [] .run).halt = none ∧
      (haltedOn .outOfRange [some .run]).running = false ∧
      (haltedOn .outOfRange [some .run]).arrivals = some .run :: [] ∧ (haltedOn .outOfRange [some .run]).halt ≠ none := by
  decide

theorem test_witness_StepCommandIsOneIteration :
    (commanded [0x20220003] .step).running = false ∧ (commanded [0x20220003] .step).halt = none ∧
      (commanded [0x20220003] .step).arrivals = some .step :: [] := by decide

/-- REWIND not halted (one entry) and halted (two). -/
theorem test_witness_RewindCommandMovesBack :
    { stored with arrivals := [some .rewind] }.running = false ∧
      { stored with arrivals := [some .rewind] }.arrivals = some .rewind :: [] ∧
      (1 : Nat) = (if { stored with arrivals := [some .rewind] }.halt = none then 1 else stored.setup.haltedRewindSteps) ∧
      (haltedOn .outOfRange [some .rewind]).running = false ∧
      (haltedOn .outOfRange [some .rewind]).arrivals = some .rewind :: [] ∧
      2 = (if (haltedOn .outOfRange [some .rewind]).halt = none then 1 else stored.setup.haltedRewindSteps) := by decide

/-- Setting and clearing, a value that is in the set and one that is not. -/
theorem test_witness_BreakpointCommandsAreSetOperations :
    (commanded [] (.setBp 4)).running = false ∧ (commanded [] (.setBp 4)).arrivals = some (.setBp 4) :: [] ∧
      (commanded [] (.clrBp 4)).running = false ∧ (commanded [] (.clrBp 4)).arrivals = some (.clrBp 4) :: [] ∧
      risingBp [4, 8] ∧ (4 : Word) ∈ ([4, 8] : List Word) ∧ (5 : Word) ∉ ([4, 8] : List Word) := by
  unfold risingBp; decide

/-- Nothing scheduled; nothing arriving now; each command that changes nothing; STEP while halted. -/
theorem test_witness_CommandsThatChangeNothing :
    stored.running = false ∧ stored.arrivals = [] ∧ { stored with arrivals := [none] }.arrivals = none :: [] ∧
      (commanded [] .pause).arrivals = some .pause :: [] ∧
      (commanded [] .listBreakpoints).arrivals = some .listBreakpoints :: [] ∧
      (commanded [] .help).arrivals = some .help :: [] ∧
      (haltedOn .assertionFailed [some .step]).running = false ∧ (haltedOn .assertionFailed [some .step]).halt ≠ none ∧
      (haltedOn .assertionFailed [some .step]).arrivals = some .step :: [] := by decide

/-- A halted engine under no command, RUN and REWIND. -/
theorem test_witness_HaltedEngineExecutesNothing :
    (haltedOn .inputExhausted []).halt = some .inputExhausted ∧ (after (step (haltedOn .inputExhausted []))).isSome = true ∧
      (after (step (haltedOn .inputExhausted [some .run]))).map (fun t => t.halt) = some none ∧
      (after (step (haltedOn .inputExhausted [some .rewind]))).map (fun t => t.halt) = some none := by decide

/-- A step of each clause: one that halts; a fresh iteration and a replayed one; another command; a halted engine under
none and under RUN. -/
theorem test_witness_StatisticsCountIterations :
    ((after (step (runningOn []))).map fun t => decide (t.halt ≠ none)) = some true ∧
      (after (step (runningOn [0x20220003]))).map (fun t => (t.halt, t.stats.total)) = some (none, 1) ∧
      (after (step { rewound with arrivals := [some .step] })).map (fun t => (t.halt, t.stats.total)) = some (none, 1) ∧
      ((commanded [] .run).halt = none ∧ (commanded [] .run).running = false ∧
        (commanded [] .run).arrivals.head? ≠ some (some .step)) ∧
      ((haltedOn .outOfRange []).halt ≠ none ∧ (haltedOn .outOfRange []).arrivals.head? ≠ some (some .run)) ∧
      (haltedOn .outOfRange [some .run]).arrivals.head? = some (some .run) := by decide

theorem test_witness_ConfigurationNeverChanges : (after (step State.reset)).isSome = true := by decide

/-- Below capacity, at capacity, and off the tail. -/
theorem test_witness_AppendAddsTheTailAndEvicts :
    (stored.hist.append 3 Snapshot.genesis).map History.size = some 3 ∧ stored.hist.size < 3 ∧
      (stored.hist.append 2 Snapshot.genesis).map History.size = some 2 ∧ stored.hist.size = 2 ∧
      rewound.hist.append 2 Snapshot.genesis = none := by decide

theorem test_witness_AdvanceRedoesTheStore : rewound.advance = some stored ∧ stored.advance = none := by decide

/-- At the head and after it. -/
theorem test_witness_RewindUndoesTheStore :
    rewound.hist.cursor = 0 ∧ stored.hist.cursor ≠ 0 ∧ stored.now.patch = some ⟨3, 0, 42⟩ := by decide

theorem test_witness_stored_inv : stored.Inv where
  setup := by decide
  memWf := by decide
  memWithin := by decide
  bound := by decide
  haltStops := by decide
  totalIsSum := by decide
  bpRising := by unfold risingBp; decide
  aligned := by decide
  back := by
    refine ⟨fun q hq => ?_, trivial⟩
    rw [← Option.some.inj (show some (⟨3, 0, 42⟩ : Patch) = some q from hq)]
    decide
  forward := trivial

theorem test_witness_rewound_inv : rewound.Inv where
  setup := by decide
  memWf := by decide
  memWithin := by decide
  bound := by decide
  haltStops := by decide
  totalIsSum := by decide
  bpRising := by unfold risingBp; decide
  aligned := by decide
  back := trivial
  forward := by
    refine ⟨fun q hq => ?_, trivial⟩
    rw [← Option.some.inj (show some (⟨3, 0, 42⟩ : Patch) = some q from hq)]
    decide

/-- The entry after P3's SWO follows from the one before it. -/
theorem test_witness_follows : Follows (withCode codeP3) [] beforeStore afterStore [(12, 42)] := by
  refine ⟨0xBC221800, .swo 1 2 3, none,
    { freshAt (withCode codeP3) [(12, 42)] afterStore none with
      hist := ⟨[beforeStore], afterStore, []⟩, stats := Stats.zero.bump .swo }, ?_, ?_, ?_, rfl, rfl⟩ <;> rfl

theorem test_witness_stored_linked : stored.Linked := ⟨⟨test_witness_follows, trivial⟩, trivial⟩

theorem test_witness_rewound_linked : rewound.Linked := ⟨trivial, ⟨test_witness_follows, trivial⟩⟩

/-- A store that completes, two entries retained; a state before the head's end; one before the tail. -/
theorem test_witness_ExecuteThenRewindRestores :
    stored.mem.wf = true ∧ 2 ≤ stored.setup.capacity ∧ (see (.swo 1 2 3) stored fun t => t.stats.total) = some 1 ∧
      stored.hist.cursor ≠ 0 ∧ rewound.advance = some stored := by decide

theorem test_witness_HistoryIsBounded :
    stored.Inv ∧ (after (Sys2Proof.core.run 1 stored)).isSome = true ∧ stored.setup.capacity - 1 ≤ 255 :=
  ⟨test_witness_stored_inv, by decide, by decide⟩

theorem test_witness_InvariantHoldsAtConstruction : (withCode codeP3).wf = true := by decide

/-- Any step from a state that meets both invariants: none of the two is lost in a free run, a STEP or a replay. -/
theorem test_witness_InvariantKeptByEveryStep :
    stored.Inv ∧ (after (step { stored with arrivals := [some .step] })).isSome = true ∧
      rewound.Inv ∧ (after (step { rewound with arrivals := [some .step] })).isSome = true :=
  ⟨test_witness_stored_inv, by decide, test_witness_rewound_inv, by decide⟩

theorem test_witness_MemoryIsBasePlusPatches : stored.Inv ∧ stored.base = [] := ⟨test_witness_stored_inv, by decide⟩

theorem test_witness_ReplayEqualsReexecution :
    rewound.Inv ∧ rewound.Linked ∧ rewound.hist.newer ≠ [] ∧
      rewound.setup.code[rewound.now.pc.toNat / 4]? = some 0xBC221800 ∧
      decode rewound.setup.opcodes 0xBC221800 = .instr (.swo 1 2 3) ∧ Instr.opcode (.swo 1 2 3) ≠ .charIn :=
  ⟨test_witness_rewound_inv, test_witness_rewound_linked, by decide, by decide, by decide, by decide⟩

theorem test_witness_FloatRegistersStayZero :
    fsub32 stored.setup 0 0 = 0 ∧ (∀ e ∈ stored.hist.entries, ∀ r, e.readF r = 0) ∧
      (after (step { stored with arrivals := [some .step] })).isSome = true := by decide

/-- A finite difference that is inexact, and one past the overflow threshold. -/
theorem test_witness_FsubIsCorrectlyRounded :
    fsubListed Setup.default 0x3F800000 0x33000001 = none ∧ fsubListed Setup.default 0x7F7FFFFF 0xFF7FFFFF = none ∧
      F32.isFinite 0x3F800000 = true ∧ F32.isFinite 0x33000001 = true ∧
      F32.isFinite (fsub32 Setup.default 0x3F800000 0x33000001) = true ∧
      F32.isFinite 0x7F7FFFFF = true ∧ F32.isFinite 0xFF7FFFFF = true ∧
      F32.isFinite (fsub32 Setup.default 0x7F7FFFFF 0xFF7FFFFF) = false := by decide

/-- A NaN operand; two infinities of one sign; an infinity first, and one second; an exact zero. -/
theorem test_witness_FsubSpecialOperands :
    (∀ a b, fsubListed Setup.default a b = none) ∧ F32.isNaN 0x7F800001 = true ∧ (F32.isInf 0xFF800000 = true ∧ F32.sign 0xFF800000 = F32.sign 0xFF800000) ∧
      (F32.isInf 0x7F800000 = true ∧ F32.isNaN 0xFF800000 = false ∧ F32.sign 0x7F800000 ≠ F32.sign 0xFF800000) ∧
      (F32.isFinite 0x3F800000 = true ∧ F32.isInf 0x7F800000 = true) ∧
      (F32.isFinite 0x80000000 = true ∧ F32.isFinite 0x00000000 = true ∧ F32.value 0x80000000 = F32.value 0x00000000) :=
  ⟨fun _ _ => rfl, by decide⟩

/-- The greatest and the least operand of the range, and both zeros. -/
theorem test_witness_FtoiTruncatesTowardZero :
    (F32.isFinite 0x4EFFFFFF = true ∧ F32.value 0x4EFFFFFF < 2 ^ 31 * 2 ^ 149 ∧ 0 ≤ F32.value 0x4EFFFFFF) ∧
      (F32.isFinite 0xCF000000 = true ∧ -(2 ^ 31 + 1) * 2 ^ 149 < F32.value 0xCF000000 ∧ F32.value 0xCF000000 ≤ 0) ∧
      (F32.value 0x80000000 = 0 ∧ F32.value 0x00000000 = 0) := by decide

end Sys2Proof.Tests
end

section
/-! SUPPORT. The frame of the twelve instructions (R11), and the steps and commands that change nothing (R12). -/

namespace Sys2Proof.Machine

/-- What retiring an instruction makes current, and what it leaves alone (R162, R184). -/
theorem State.retire_keeps {s t : State} {op : Opcode} {e : Snapshot} (h : s.retire op e = .next t) :
    t.hist.now = e ∧ t.mem = s.mem ∧ t.input = s.input ∧ t.setup = s.setup ∧ t.bp = s.bp ∧
      t.arrivals = s.arrivals := by
  obtain ⟨hist, happ, rfl⟩ := State.retire_spec h
  obtain ⟨-, hnow, -, -⟩ := History.append_spec happ
  exact ⟨hnow, rfl, rfl, rfl, rfl, rfl⟩

/-- The memory an instruction retires with reads as before at every byte outside the word it stores to (R54). -/
theorem RetiresFrom.read_mem {i : Instr} {s s' : State} {e : Snapshot} (h : RetiresFrom i s s' e)
    (hwf : s.mem.wf = true) {a : Nat} (ha : storeIndex i s ≠ some (a / 4)) : s'.mem.read a = s.mem.read a := by
  rcases h.store with ⟨-, -, hmem⟩ | ⟨idx, v, hidx, -, -, hmem⟩
  · rw [hmem]
  · have hother : ¬ a / 4 = idx := fun heq => ha (heq ▸ hidx)
    rw [hmem, Memory.read_writeWord hwf, if_neg hother]

/-- Settles O25: a halt touches nothing the frame speaks of, and a retired instruction has the frame of `RetiresFrom`. -/
theorem instructionFrame : Obligations.InstructionFrame := by
  intro i s t hwf hexec
  rcases exec_cases hexec with ⟨r, -, rfl⟩ | ⟨s', e, hfrom, hretire⟩
  case inl =>
    exact ⟨fun _ _ => rfl, fun _ _ => rfl, fun _ => ⟨rfl, rfl⟩, fun _ _ => rfl, fun _ => rfl, rfl, rfl, rfl⟩
  case inr =>
    obtain ⟨hnow, hmem, hinput, hsetup, hbp, harrivals⟩ := State.retire_keeps hretire
    subst hnow
    exact ⟨hfrom.x, hfrom.f, hfrom.hiLo, fun a ha => hmem ▸ hfrom.read_mem hwf ha,
      fun hi => hinput.trans (hfrom.input hi), hsetup.trans hfrom.setup, hbp.trans hfrom.bp,
      harrivals.trans hfrom.arrivals⟩

/-! One step that awaits a command, by the form of the schedule (R180, log 6). -/

theorem step_of_no_schedule {s : State} (hr : s.running = false) (ha : s.arrivals = []) : step s = .next s := by
  rw [step_awaiting (.inl hr), awaitStep, ha]

theorem step_of_none_arriving {s : State} {rest : List (Option Command)} (hr : s.running = false)
    (ha : s.arrivals = none :: rest) : step s = .next { s with arrivals := rest } := by
  rw [step_awaiting (.inl hr), awaitStep, ha]

theorem step_of_command_arriving {s : State} {c : Command} {rest : List (Option Command)} (hr : s.running = false)
    (ha : s.arrivals = some c :: rest) : step s = command c { s with arrivals := rest } := by
  rw [step_awaiting (.inl hr), awaitStep, ha]

/-- STEP while halted changes nothing (R191, D23). -/
theorem command_step_of_halted {s : State} (hh : s.halt ≠ none) : command .step s = .next s :=
  if_pos (Option.isSome_iff_ne_none.2 hh)

/-- Settles O40: by the form of the schedule's next entry. -/
theorem commandsThatChangeNothing : Obligations.CommandsThatChangeNothing := by
  intro s rest hr
  refine ⟨step_of_no_schedule hr, fun c hc ha => ?_, fun hh ha => ?_⟩
  · simp only [List.mem_cons, List.not_mem_nil, or_false] at hc
    rcases hc with rfl | rfl | rfl | rfl
    · exact step_of_none_arriving hr ha
    · exact step_of_command_arriving hr ha
    · exact step_of_command_arriving hr ha
    · exact step_of_command_arriving hr ha
  · rw [step_of_command_arriving hr ha]
    exact command_step_of_halted hh

end Sys2Proof.Machine
end

section
/-! SUPPORT. The state of 10_state.md: what construction leaves (R38), register 0 (R22), the configuration (R30), and
where the entries of the window come from (R161-R166), from which the float registers stay zero (R25). -/

namespace Sys2Proof.Machine

/-! Construction. -/

@[simp] theorem Snapshot.readX_genesis (r : RegIx) : Snapshot.genesis.readX r = 0 := by
  simp [Snapshot.readX, Snapshot.genesis]

@[simp] theorem Snapshot.readF_genesis (r : RegIx) : Snapshot.genesis.readF r = 0 := by
  simp [Snapshot.readF, Snapshot.genesis]

@[simp] theorem Stats.count_zero (o : Opcode) : Stats.zero.count o = 0 := by cases o <;> rfl

/-- Settles O50: field by field; only the registers and the counters range over an index. -/
theorem constructionGivesGenesis : Obligations.ConstructionGivesGenesis := by
  intro c input
  exact ⟨rfl, Snapshot.readX_genesis, Snapshot.readF_genesis, rfl, rfl, rfl, rfl, rfl, rfl, fun _ => rfl, rfl, rfl,
    rfl, Stats.count_zero, rfl, rfl, rfl⟩

/-! The registers an instruction does not name as its destination. -/

/-- The register frame of every instruction, whatever the form of memory (R11, R21, R25). -/
theorem exec_keeps_registers {i : Instr} {s t : State} (h : exec i s = .next t) :
    sameXBut i.destX s t ∧ sameFBut i.destF s t := by
  rcases exec_cases h with ⟨r, -, rfl⟩ | ⟨s', e, hfrom, hretire⟩
  · exact ⟨fun _ _ => rfl, fun _ _ => rfl⟩
  · obtain ⟨rfl, -⟩ := State.retire_keeps hretire
    exact ⟨hfrom.x, hfrom.f⟩

/-- Settles O29: register 0 is a register other than the destination. -/
theorem registerZeroConvention : Obligations.RegisterZeroConvention := by
  intro i s t hspares hexec
  have hdest : i.destX ≠ some 0 := by simpa [Instr.sparesRegZero] using hspares
  exact (exec_keeps_registers hexec).1 0 hdest

/-! What a step does to the configuration and to the history. -/

/-- A step keeps the configuration, and it keeps the history, resets it, rewinds it, or does to it what one iteration
does (R162-R166, R187-R192). -/
theorem step_setup_hist {s t : State} (h : step s = .next t) :
    t.setup = s.setup ∧
      (t.hist = s.hist ∨ t.hist = ⟨[], Snapshot.genesis, []⟩ ∨
        (∃ (k : Nat) (u : State), u.hist = s.hist ∧ t.hist = (u.rewindTimes k).hist) ∨
        ∃ u v : State, u.setup = s.setup ∧ u.hist = s.hist ∧ iterate u = .next v ∧ t.hist = v.hist) := by
  rcases step_cases h with ⟨-, -, u, hiter, rfl⟩ | ⟨-, ⟨-, rfl⟩ | ⟨c, rest, -, hcommand⟩⟩
  · obtain ⟨running, arrivals, hboundary, -⟩ := boundary_spec u
    rw [hboundary]
    exact ⟨(iterate_keeps hiter).1, .inr (.inr (.inr ⟨s, u, rfl, rfl, hiter, rfl⟩))⟩
  · exact ⟨rfl, .inl rfl⟩
  · rcases hcommand with ⟨-, rfl⟩ | ⟨-, -, rfl⟩ | ⟨-, -, rfl⟩ | ⟨-, -, hiter⟩ | ⟨-, rfl⟩ | ⟨a, -, rfl⟩ | ⟨a, -, rfl⟩
    · exact ⟨rfl, .inl rfl⟩
    · exact ⟨rfl, .inl rfl⟩
    · exact ⟨rfl, .inr (.inl rfl)⟩
    · exact ⟨(iterate_keeps hiter).1, .inr (.inr (.inr ⟨{ s with arrivals := rest }, t, rfl, rfl, hiter, rfl⟩))⟩
    · exact ⟨(State.rewindTimes_keeps _ _).1, .inr (.inr (.inl ⟨_, { s with arrivals := rest }, rfl, rfl⟩))⟩
    · exact ⟨rfl, .inl rfl⟩
    · exact ⟨rfl, .inl rfl⟩

/-- Settles O43: the configuration's half of what a step does. -/
theorem configurationNeverChanges : Obligations.ConfigurationNeverChanges :=
  fun _ _ h => (step_setup_hist h).1

/-! Where the entries of the window come from. -/

theorem History.mem_entries {e : Snapshot} {h : History} :
    e ∈ h.entries ↔ e ∈ h.older ∨ e = h.now ∨ e ∈ h.newer := by simp [History.entries]

theorem History.now_mem_entries (h : History) : h.now ∈ h.entries := History.mem_entries.2 (.inr (.inl rfl))

/-- `append` retains no entry but the old ones and the new one (R162, R163). -/
theorem History.mem_entries_of_append {cap : Nat} {new e : Snapshot} {h h' : History}
    (happ : h.append cap new = some h') (he : e ∈ h'.entries) : e ∈ h.entries ∨ e = new := by
  obtain ⟨-, hnow, hnewer, holder⟩ := History.append_spec happ
  have hsub : e ∈ h'.older → e ∈ h.now :: h.older := by
    rcases holder with ⟨-, ho⟩ | ⟨-, ho⟩
    · exact fun hmem => ho ▸ hmem
    · exact fun hmem => List.mem_of_mem_dropLast (ho ▸ hmem)
  rw [History.mem_entries, hnow, hnewer] at he
  rcases he with hmem | rfl | hmem
  · rcases List.mem_cons.1 (hsub hmem) with rfl | hmem
    · exact .inl h.now_mem_entries
    · exact .inl (History.mem_entries.2 (.inl hmem))
  · exact .inr rfl
  · cases hmem

/-- `advance` moves the cursor over the entries and keeps them (R164). -/
theorem State.advance_entries {s t : State} (h : s.advance = some t) : t.hist.entries = s.hist.entries := by
  obtain ⟨e, rest, hnewer, rfl⟩ := State.advance_spec h
  simp [History.entries, hnewer]

/-- `rewind` moves the cursor over the entries and keeps them (R165). -/
theorem State.rewind_entries (s : State) : s.rewind.hist.entries = s.hist.entries := by
  rcases s.rewind_spec with ⟨-, hr⟩ | ⟨e, rest, holder, hr⟩
  · rw [hr]
  · simp [hr, History.entries, holder]

theorem State.rewindTimes_entries (k : Nat) (s : State) : (s.rewindTimes k).hist.entries = s.hist.entries :=
  State.rewindTimes_induct (P := fun u => u.hist.entries = s.hist.entries)
    (fun u hu => u.rewind_entries.trans hu) k s rfl

/-- After an iteration an entry was there before, or a fresh execution has just made it (R184, R185). -/
theorem iterate_mem_entries {s t : State} {e : Snapshot} (h : iterate s = .next t) (he : e ∈ t.hist.entries) :
    e ∈ s.hist.entries ∨ ∃ i, exec i s = .next t ∧ e = t.hist.now := by
  rcases iterate_cases h with
    ⟨r, rfl⟩ | ⟨w, i, hfetch, hdecode, ⟨u, hadvance, rfl⟩ | ⟨htail, s', new, hfrom, hretire⟩⟩
  · exact .inl he
  · exact .inl (State.advance_entries hadvance ▸ he)
  · have hexec : exec i s = .next t := iterate_fresh hfetch hdecode htail ▸ h
    obtain ⟨hnow, -⟩ := State.retire_keeps hretire
    obtain ⟨hist, happ, rfl⟩ := State.retire_spec hretire
    rw [hfrom.hist] at happ
    exact (History.mem_entries_of_append happ he).imp_right fun hnew => ⟨i, hexec, hnew.trans hnow.symm⟩

/-- After a step an entry was there before, is genesis (R166), or is the current one after executing some instruction
from the entry that was current. -/
theorem step_mem_entries {s t : State} {e : Snapshot} (h : step s = .next t) (he : e ∈ t.hist.entries) :
    e ∈ s.hist.entries ∨ e = Snapshot.genesis ∨
      ∃ i u v, u.setup = s.setup ∧ u.hist = s.hist ∧ exec i u = .next v ∧ e = v.hist.now := by
  obtain ⟨-, hsame | hreset | ⟨k, u, hu, hrewound⟩ | ⟨u, v, hsetup, hu, hiter, hv⟩⟩ := step_setup_hist h
  · exact .inl (hsame ▸ he)
  · rw [hreset] at he
    exact .inr (.inl (by simpa [History.entries] using he))
  · rw [hrewound, State.rewindTimes_entries, hu] at he
    exact .inl he
  · rw [hv] at he
    rcases iterate_mem_entries hiter he with hold | ⟨i, hexec, hnew⟩
    · exact .inl (hu ▸ hold)
    · exact .inr (.inr ⟨i, u, v, hsetup, hu, hexec, hnew⟩)

/-! The float registers. -/

/-- A write of +0.0 keeps all float registers +0.0. -/
theorem Snapshot.readF_writeF_zero {e : Snapshot} {rd : RegIx} {v : Word} (hv : v = 0) (he : ∀ r, e.readF r = 0)
    (r : RegIx) : (e.writeF rd v).readF r = 0 := by rw [Snapshot.readF_writeF, hv, he, ite_self]

theorem fabs32_zero : fabs32 0 = 0 := by decide

theorem exec_fsub (rs rt rd : RegIx) (s : State) :
    exec (.fsub rs rt rd) s =
      s.retire .fsub (s.now.fallThrough.writeF rd (fsub32 s.setup (s.now.readF rs) (s.now.readF rt))) := rfl

theorem exec_fabs (rs rd : RegIx) (s : State) :
    exec (.fabs rs rd) s = s.retire .fabs (s.now.fallThrough.writeF rd (fabs32 (s.now.readF rs))) := rfl

/-- From all float registers +0.0 every instruction leaves them +0.0: FSUB and FABS alone write one, and of +0.0 they
give +0.0 (R147). -/
theorem exec_readF_eq_zero {i : Instr} {s t : State} (hsub : fsub32 s.setup 0 0 = 0)
    (hzero : ∀ r, s.hist.now.readF r = 0) (h : exec i s = .next t) (r : RegIx) : t.hist.now.readF r = 0 := by
  by_cases hdest : i.destF = some r
  · cases i with
    | fsub rs rt rd =>
      rw [exec_fsub] at h
      obtain ⟨hnow, -⟩ := State.retire_keeps h
      rw [hnow]
      exact Snapshot.readF_writeF_zero (by rw [State.now_eq, hzero, hzero, hsub]) hzero r
    | fabs rs rd =>
      rw [exec_fabs] at h
      obtain ⟨hnow, -⟩ := State.retire_keeps h
      rw [hnow]
      exact Snapshot.readF_writeF_zero (by rw [State.now_eq, hzero, fabs32_zero]) hzero r
    | _ => cases hdest
  · exact ((exec_keeps_registers h).2 r hdest).trans (hzero r)

/-- Settles O57: genesis has all float registers zero, and an entry that a step adds is genesis or was executed from an
entry that has. -/
theorem floatRegistersStayZero : Obligations.FloatRegistersStayZero := by
  refine ⟨fun c input e he => ?_, fun s t hsub hzero hstep e he => ?_⟩
  · obtain rfl : e = Snapshot.genesis := by simpa [State.construct, History.entries] using he
    exact Snapshot.readF_genesis
  · rcases step_mem_entries hstep he with hold | rfl | ⟨i, u, v, hsetup, hhist, hexec, rfl⟩
    · exact hzero e hold
    · exact Snapshot.readF_genesis
    · have hnow : ∀ r, u.hist.now.readF r = 0 := hzero _ (hhist ▸ u.hist.now_mem_entries)
      exact exec_readF_eq_zero (hsetup ▸ hsub) hnow hexec

end Sys2Proof.Machine
end

section
/-! SUPPORT. Data memory (20_memory.md): the bounds check of a load and a store (R52), and a load after a store to the
same word (R59 a). -/

namespace Sys2Proof.Machine

/-! Out of range. -/

theorem exec_lw_out_of_range {s : State} {rs : RegIx} {imm : BitVec 16} (rt : RegIx)
    (hout : s.setup.memWords ≤ (s.now.readX rs + imm.signExtend 32).toNat / 4) :
    exec (.lw rs rt imm) s = .next (s.takeHalt .outOfRange) := by
  rw [exec_lw, if_neg (Nat.not_lt.2 hout)]

theorem exec_swo_out_of_range {s : State} {rt rd : RegIx} (rs : RegIx)
    (hout : s.setup.memWords ≤ (s.now.readX rt + s.now.readX rd).toNat / 4) :
    exec (.swo rs rt rd) s = .next (s.takeHalt .outOfRange) := by
  rw [exec_swo, if_neg (Nat.not_lt.2 hout)]

/-- Settles O21: both fail the bounds check, and taking a halt changes `halt` and `running` alone (R207). -/
theorem loadStoreHaltOutOfRange : Obligations.LoadStoreHaltOutOfRange :=
  ⟨fun _ _ rt _ hout => exec_lw_out_of_range rt hout, fun _ rs _ _ hout => exec_swo_out_of_range rs hout⟩

/-! In range. -/

/-- Retiring an instruction leaves the cursor at the tail (R162). -/
theorem State.retire_newer {s t : State} {op : Opcode} {e : Snapshot} (h : s.retire op e = .next t) :
    t.hist.newer = [] := by
  obtain ⟨hist, happ, rfl⟩ := State.retire_spec h
  obtain ⟨-, -, hnewer, -⟩ := History.append_spec happ
  exact hnewer

/-- A store in range leaves its word in memory, the cursor at the tail and the configuration as it was (R132, R54). -/
theorem exec_swo_in_range {s t : State} {rs rt rd : RegIx}
    (hin : (s.now.readX rt + s.now.readX rd).toNat / 4 < s.setup.memWords) (h : exec (.swo rs rt rd) s = .next t) :
    t.mem = s.mem.writeWord ((s.now.readX rt + s.now.readX rd).toNat / 4) (s.now.readX rs) ∧
      t.hist.newer = [] ∧ t.setup = s.setup := by
  rw [exec_swo, if_pos hin] at h
  obtain ⟨-, hmem, -, hsetup, -⟩ := State.retire_keeps h
  exact ⟨hmem, State.retire_newer h, hsetup⟩

/-- A load in range completes at the tail, and its register then holds the word at the index (R131, R53). -/
theorem exec_lw_in_range {s : State} {rs : RegIx} {imm : BitVec 16} (rt : RegIx) (htail : s.hist.newer = [])
    (hin : (s.now.readX rs + imm.signExtend 32).toNat / 4 < s.setup.memWords) :
    ∃ t, exec (.lw rs rt imm) s = .next t ∧
      t.now.readX rt = s.mem.readWord ((s.now.readX rs + imm.signExtend 32).toNat / 4) := by
  rw [exec_lw, if_pos hin]
  obtain ⟨hist, -, hretire⟩ := State.retire_at_tail htail .lw
    (s.now.fallThrough.writeX rt (s.mem.readWord ((s.now.readX rs + imm.signExtend 32).toNat / 4)))
  obtain ⟨hnow, -⟩ := State.retire_keeps hretire
  refine ⟨_, hretire, ?_⟩
  rw [State.now_eq, hnow, Snapshot.readX_writeX, if_pos rfl]

/-- Settles O28: the load is in range because the store was, and it reads the index the store has just written. -/
theorem storeThenLoadReadsTheStoredWord : Obligations.StoreThenLoadReadsTheStoredWord := by
  intro s t rs rt rd rb rx imm hwf _ hin hstore hsame
  obtain ⟨hmem, htail, hsetup⟩ := exec_swo_in_range hin hstore
  obtain ⟨u, hload, hread⟩ := exec_lw_in_range rx htail (by rw [hsame, hsetup]; exact hin)
  refine ⟨u, hload, ?_⟩
  rw [hread, hsame, hmem, Memory.readWord_writeWord hwf, if_pos rfl]

end Sys2Proof.Machine
end

section
/-! SUPPORT. The encoding (30_encoding.md): the fields an opcode reads (R77), a word cut down to some of its fields
(R78), and the opcode values that no instruction has (R80). -/

namespace Sys2Proof

open Machine

/-! A word cut down to some of its fields. -/

/-- A field holds bit `i` of a word, counted from the least significant bit (R71-R75). -/
def Field.covers (f : Field) (i : Nat) : Bool := !decide (i < 32 - f.stop) && decide (i < 32 - f.start)

/-- The word with every bit outside these fields cleared. -/
def keepFields (fs : List Field) (w : Word) : Word := fs.foldr (fun f acc => f.put (f.get w) ||| acc) 0

/-- A field put back at its place is the word's bits there, and zeros elsewhere. -/
theorem Field.getLsbD_put_get (f : Field) (w : Word) (i : Nat) :
    (f.put (f.get w)).getLsbD i = (w.getLsbD i && f.covers i) := by
  have hdomain := f.inDomain
  rw [Field.put_getLsbD, Field.get_getLsbD, Field.covers]
  by_cases hlow : i < 32 - f.stop
  · simp [hlow]
  · have hwidth : i - (32 - f.stop) < f.stop - f.start ↔ i < 32 - f.start := by omega
    have hplace : 32 - f.stop + (i - (32 - f.stop)) = i := by omega
    by_cases hhigh : i < 32 - f.start
    · simp [hlow, hhigh, hwidth, hplace, show i < 32 by omega]
    · simp [hhigh, hwidth]

theorem getLsbD_keepFields (fs : List Field) (w : Word) (i : Nat) :
    (keepFields fs w).getLsbD i = (w.getLsbD i && fs.any (·.covers i)) := by
  induction fs with
  | nil => simp [keepFields]
  | cons f fs ih =>
    have hcons : keepFields (f :: fs) w = f.put (f.get w) ||| keepFields fs w := rfl
    rw [hcons, BitVec.getLsbD_or, f.getLsbD_put_get, ih, List.any_cons, Bool.and_or_distrib_left]

/-- Which bits are kept does not depend on the word: they are a mask. -/
theorem keepFields_eq_and (fs : List Field) (w : Word) :
    keepFields fs w = w &&& keepFields fs (BitVec.allOnes 32) := by
  apply BitVec.eq_of_getLsbD_eq
  intro i hi
  rw [BitVec.getLsbD_and, getLsbD_keepFields, getLsbD_keepFields, BitVec.getLsbD_allOnes, decide_eq_true hi,
    Bool.true_and]

/-- A field that is kept can be read back. -/
theorem Field.get_keepFields {f : Field} {fs : List Field} (hf : f ∈ fs) (w : Word) :
    f.get (keepFields fs w) = f.get w := by
  apply BitVec.eq_of_getLsbD_eq
  intro i _
  rw [Field.get_getLsbD, Field.get_getLsbD, getLsbD_keepFields]
  by_cases hi : i < f.stop - f.start
  · have hdomain := f.inDomain
    have hcovers : f.covers (32 - f.stop + i) = true := by
      rw [Field.covers, decide_eq_false (by omega), decide_eq_true (by omega), Bool.not_false, Bool.true_and]
    rw [List.any_eq_true.2 ⟨f, hf, hcovers⟩, Bool.and_true]
  · simp [hi]

/-! The fields an opcode reads. -/

/-- The fields that an opcode's instruction is made of (R77), and the opcode itself. -/
def Opcode.reads : Opcode → List Field
  | .j => [.opcode, .addr]
  | .beq => [.opcode, .rs, .rt, .immediate]
  | .addi => [.opcode, .rs, .rt, .immediate]
  | .lui => [.opcode, .rt, .immediate]
  | .mult => [.opcode, .rs, .rt]
  | .lw => [.opcode, .rs, .rt, .immediate]
  | .swo => [.opcode, .rs, .rt, .rd]
  | .fsub => [.opcode, .rs, .rt, .rd]
  | .fabs => [.opcode, .rs, .rd]
  | .ftoi => [.opcode, .rs, .rd]
  | .assert => [.opcode, .rs, .immediate]
  | .charIn => [.opcode, .rd]

theorem readMask_eq_keepFields (op : Opcode) : readMask op = keepFields op.reads (BitVec.allOnes 32) := by
  cases op <;> decide

theorem and_readMask (op : Opcode) (w : Word) : w &&& readMask op = keepFields op.reads w := by
  rw [readMask_eq_keepFields, ← keepFields_eq_and]

/-- Words with the same read bits have the same fields at the places the opcode reads. -/
theorem Field.get_eq_of_and_readMask {op : Opcode} {w w' : Word} (h : w' &&& readMask op = w &&& readMask op)
    {f : Field} (hf : f ∈ op.reads) : f.get w' = f.get w := by
  rw [and_readMask, and_readMask] at h
  rw [← Field.get_keepFields hf w', h, Field.get_keepFields hf w]

theorem opcodeBits_eq_of_and_readMask {op : Opcode} {w w' : Word} (h : w' &&& readMask op = w &&& readMask op) :
    opcodeBits w' = opcodeBits w := by
  have hreads : Field.opcode ∈ op.reads := by cases op <;> decide
  rw [opcodeBits, opcodeBits, Field.get_eq_of_and_readMask h hreads]

/-- The instruction depends on the fields its opcode reads alone (R77, R78). -/
theorem assemble_congr {op : Opcode} {w w' : Word} (h : ∀ f ∈ op.reads, f.get w' = f.get w) :
    assemble op w' = assemble op w := by
  cases op <;>
    simp only [Opcode.reads, List.forall_mem_cons] at h <;>
    simp only [assemble, decodeR, decodeI, decodeJ, h]

/-! Encoding what was decoded. -/

@[simp] theorem opcode_assemble (op : Opcode) (w : Word) : (assemble op w).opcode = op := by cases op <;> rfl

@[simp] theorem Field.put_zero (f : Field) : f.put 0#32 = 0#32 := BitVec.zero_shiftLeft _

/-- A field fits the width the operand records keep it in. -/
theorem Field.setWidth_get (f : Field) {n : Nat} (hn : f.stop - f.start ≤ n) (w : Word) :
    ((f.get w).setWidth n).setWidth 32 = f.get w := by
  apply BitVec.eq_of_getLsbD_eq
  intro i hi
  rw [BitVec.getLsbD_setWidth, BitVec.getLsbD_setWidth, Field.get_getLsbD]
  by_cases h : i < f.stop - f.start
  · simp [hi, show i < n by omega]
  · simp [h]

/-- Encoding assembles the fields that were read, and zeros in the others (R78, R83). -/
theorem encode_assemble {m : OpcodeMap} {op : Opcode} {w : Word} (h : m.code op = opcodeBits w) :
    encode m (assemble op w) = keepFields op.reads w := by
  cases op <;>
    simp only [OpcodeMap.code] at h <;>
    simp (disch := decide) [encode, encodeR, encodeI, encodeJ, h, opcodeBits, assemble, decodeR, decodeI, decodeJ,
      Field.setWidth_get, keepFields, Opcode.reads, BitVec.or_assoc]

/-- Settles O6: both halves hold field by field, for the fields the opcode reads. -/
theorem ignoredFieldsDoNotMatter : Obligations.IgnoredFieldsDoNotMatter := by
  intro m w i hdecode
  obtain ⟨op, hlookup, rfl⟩ := decode_eq_instr.1 hdecode
  rw [opcode_assemble]
  refine ⟨?_, fun w' hw => decode_eq_instr.2 ⟨op, ?_, ?_⟩⟩
  · rw [encode_assemble (OpcodeMap.lookup_sound hlookup), and_readMask]
  · rw [opcodeBits_eq_of_and_readMask hw, hlookup]
  · exact assemble_congr fun _ hf => Field.get_eq_of_and_readMask hw hf

/-! The opcode values that no instruction has. -/

theorem Opcode.mem_all (op : Opcode) : op ∈ Opcode.all := by cases op <;> decide

theorem OpcodeMap.lookup_eq_none {m : OpcodeMap} {bits : BitVec 6} :
    m.lookup bits = none ↔ ∀ op, m.code op ≠ bits := by
  simp [OpcodeMap.lookup, Opcode.mem_all]

/-- What a rejection says (R80, R99). -/
theorem decode_eq_unknownOpcode {m : OpcodeMap} {w : Word} {bits : BitVec 6} :
    decode m w = .unknownOpcode bits ↔ bits = opcodeBits w ∧ ∀ op, m.code op ≠ opcodeBits w := by
  rw [← OpcodeMap.lookup_eq_none, decode]
  cases hl : m.lookup (opcodeBits w) <;> simp [eq_comm]

theorem opcodeBits_toNat (w : Word) : (opcodeBits w).toNat = w.toNat / 2 ^ 26 := by
  have hw := w.isLt
  simp only [opcodeBits, Field.get, extractBits, Field.start, Field.stop, BitVec.toNat_setWidth, BitVec.toNat_ofNat,
    Nat.shiftRight_eq_div_pow]
  omega

/-- The twelve values of the default map, in the table's order (R79). -/
theorem default_codes_toNat :
    Opcode.all.map (fun op => (Config.opcodes.code op).toNat) = [2, 4, 8, 15, 24, 35, 47, 49, 50, 51, 62, 63] := by
  decide

/-- Settles O7: lookup fails exactly where no opcode has the value, and the default map's values are the twelve. -/
theorem unknownOpcodesAreTheRest : Obligations.UnknownOpcodesAreTheRest := by
  refine ⟨fun m w bits => decode_eq_unknownOpcode, fun w => ?_⟩
  rw [← default_codes_toNat, ← opcodeBits_toNat]
  simp [decode_eq_unknownOpcode, Opcode.mem_all, BitVec.toNat_inj]

end Sys2Proof
end

section
/-! SUPPORT. The codec functions and the dispatch (40_codec_decoders.md): `extractBits` as a slice (R90), `signExtend` as
the library's sign extension (R92), and what executing an instruction reads and writes outside the snapshot (R101). -/

namespace Sys2Proof

/-! `extractBits`. -/

theorem extractBits_toNat (w : Word) (b e : Nat) (h : b < e ∧ e ≤ 32) :
    (extractBits w b e h).toNat = w.toNat / 2 ^ (32 - e) % 2 ^ (e - b) := by
  have hfits : w.toNat / 2 ^ (32 - e) % 2 ^ (e - b) < 2 ^ 32 :=
    (Nat.mod_le _ _).trans_lt ((Nat.div_le_self _ _).trans_lt w.isLt)
  rw [extractBits, BitVec.toNat_ofNat, Nat.shiftRight_eq_div_pow, Nat.mod_eq_of_lt hfits]

theorem extractBits_toNat_lt (w : Word) (b e : Nat) (h : b < e ∧ e ≤ 32) :
    (extractBits w b e h).toNat < 2 ^ (e - b) := by
  rw [extractBits_toNat]
  exact Nat.mod_lt _ (Nat.two_pow_pos _)

/-- The bits counted from the most significant one (R90). -/
theorem extractBits_getLsbD_eq_getMsbD (w : Word) (b e : Nat) (h : b < e ∧ e ≤ 32) {i : Nat} (hi : i < e - b) :
    (extractBits w b e h).getLsbD i = w.getMsbD (e - 1 - i) := by
  have hplace : 32 - 1 - (e - 1 - i) = 32 - e + i := by omega
  rw [extractBits_getLsbD, BitVec.getMsbD, hplace, decide_eq_true hi, decide_eq_true (by omega)]

theorem extractBits_whole (w : Word) (h : 0 < 32 ∧ 32 ≤ 32) : extractBits w 0 32 h = w := by
  apply BitVec.eq_of_toNat_eq
  rw [extractBits_toNat, Nat.sub_self, pow_zero, Nat.div_one, Nat.mod_eq_of_lt w.isLt]

/-- Settles O1: the value, its bound and its bits for every range; the four examples are evaluated. -/
theorem extractBitsGivesTheSlice : Obligations.ExtractBitsGivesTheSlice := by
  refine ⟨fun w b e h => ⟨extractBits_toNat w b e h, ?_, fun i hi => extractBits_getLsbD_eq_getMsbD w b e h hi⟩,
    fun w => extractBits_whole w _, ?_⟩
  · exact Nat.le_sub_one_of_lt (extractBits_toNat_lt w b e h)
  · decide

/-! `signExtend`. -/

/-- The signed value of the low `n` bits (R92). -/
theorem toInt_setWidth_eq_ite (value : Word) {n : Nat} (hn : 1 ≤ n) :
    (value.setWidth n).toInt =
      if value.toNat % 2 ^ n < 2 ^ (n - 1) then ((value.toNat % 2 ^ n : Nat) : Int)
      else ((value.toNat % 2 ^ n : Nat) : Int) - 2 ^ n := by
  have htwice : 2 ^ n = 2 * 2 ^ (n - 1) := by rw [← pow_succ', Nat.sub_add_cancel hn]
  rw [BitVec.toInt_eq_toNat_cond, BitVec.toNat_setWidth, Nat.cast_pow, Nat.cast_ofNat]
  exact if_congr (by omega) rfl rfl

/-- `signExtend` is the library's sign extension of the low `n` bits (R92). -/
theorem signExtend_eq (value : Word) (n : Nat) (h : 1 ≤ n ∧ n ≤ 32) :
    signExtend value n h = (value.setWidth n).signExtend 32 := by
  rw [BitVec.signExtend, toInt_setWidth_eq_ite value h.1, apply_ite (BitVec.ofInt 32)]
  rfl

/-- Below the sign bit the bits are kept; from it on they are the sign (R92). -/
theorem signExtend_getLsbD (value : Word) (n : Nat) (h : 1 ≤ n ∧ n ≤ 32) {i : Nat} (hi : i < 32) :
    (signExtend value n h).getLsbD i = value.getLsbD (min i (n - 1)) := by
  rw [signExtend_eq, BitVec.getLsbD_signExtend, decide_eq_true hi, Bool.true_and]
  split_ifs with hlow
  · rw [BitVec.getLsbD_setWidth, decide_eq_true hlow, Bool.true_and, Nat.min_eq_left (by omega)]
  · rw [BitVec.msb_setWidth, decide_eq_true (by omega), Bool.true_and, Nat.min_eq_right (by omega)]

/-- Settles O2: both readings of the library's sign extension; the four examples are evaluated. -/
theorem signExtendIsTwosComplement : Obligations.SignExtendIsTwosComplement := by
  refine ⟨fun value n h => ⟨?_, fun i hi => signExtend_getLsbD value n h hi⟩, ?_⟩
  · rw [signExtend_eq, BitVec.toInt_signExtend_of_le h.2, toInt_setWidth_eq_ite value h.1]
  · decide

end Sys2Proof

namespace Sys2Proof.Machine

/-! Retiring an instruction neither reads nor writes memory or the stream (R162, R184). -/

theorem State.retire_with_mem {s t : State} {op : Opcode} {e : Snapshot} (h : s.retire op e = .next t) (m : Memory) :
    ({ s with mem := m } : State).retire op e = .next { t with mem := m } := by
  obtain ⟨hist, happ, rfl⟩ := State.retire_spec h
  rw [State.retire, happ]
  rfl

theorem State.retire_with_input {s t : State} {op : Opcode} {e : Snapshot} (h : s.retire op e = .next t)
    (inp : Option (List Byte)) :
    ({ s with input := inp } : State).retire op e = .next { t with input := inp } := by
  obtain ⟨hist, happ, rfl⟩ := State.retire_spec h
  rw [State.retire, happ]
  rfl

/-- An instruction that retires or halts on a condition (LW, SWO, ASSERT) takes no note of the stream. -/
theorem State.ite_retire_halt_with_input {s s' t : State} {c : Prop} [Decidable c] {op : Opcode} {e : Snapshot}
    {r : HaltReason} (h : (if c then s'.retire op e else .next (s.takeHalt r)) = .next t) (inp : Option (List Byte)) :
    (if c then ({ s' with input := inp } : State).retire op e else .next (({ s with input := inp } : State).takeHalt r)) =
      .next { t with input := inp } := by
  split_ifs at h ⊢
  · exact State.retire_with_input h inp
  · cases h
    rfl

/-! What an instruction writes outside the snapshot. -/

theorem storeIndex_eq_none {i : Instr} (hi : i.opcode ≠ .swo) (s : State) : storeIndex i s = none := by
  cases i with
  | swo rs rt rd => exact absurd rfl hi
  | _ => rfl

/-- Memory is written by SWO alone (R54). -/
theorem exec_keeps_mem {i : Instr} {s t : State} (hi : i.opcode ≠ .swo) (h : exec i s = .next t) : t.mem = s.mem := by
  rcases exec_cases h with ⟨r, -, rfl⟩ | ⟨s', e, hfrom, hretire⟩
  · rfl
  · obtain ⟨-, hmem, -⟩ := State.retire_keeps hretire
    rcases hfrom.store with ⟨-, -, hsame⟩ | ⟨idx, v, hidx, -⟩
    · exact hmem.trans hsame
    · rw [storeIndex_eq_none hi] at hidx
      cases hidx

/-- The stream is consumed by IN alone (R152). -/
theorem exec_keeps_input {i : Instr} {s t : State} (hi : i.opcode ≠ .charIn) (h : exec i s = .next t) :
    t.input = s.input := by
  rcases exec_cases h with ⟨r, -, rfl⟩ | ⟨s', e, hfrom, hretire⟩
  · rfl
  · obtain ⟨-, -, hinput, -⟩ := State.retire_keeps hretire
    exact hinput.trans (hfrom.input hi)

/-! What an instruction reads outside the snapshot. -/

/-- Only LW and SWO depend on memory: any other instruction does the same over another memory, and leaves that memory as
it is (R101). -/
theorem exec_with_mem {i : Instr} {s t : State} (hlw : i.opcode ≠ .lw) (hswo : i.opcode ≠ .swo)
    (h : exec i s = .next t) (m : Memory) : exec i { s with mem := m } = .next { t with mem := m } := by
  cases i with
  | lw rs rt imm => exact absurd rfl hlw
  | swo rs rt rd => exact absurd rfl hswo
  | assert rs imm =>
    rw [exec_assert] at h ⊢
    split_ifs at h with heq
    · exact (if_pos heq).trans (State.retire_with_mem h m)
    · cases h
      exact if_neg heq
  | charIn rd =>
    cases hpop : inputPop s.input with
    | none =>
      rw [exec_charIn_none rd hpop] at h
      cases h
      exact exec_charIn_none (s := { s with mem := m }) rd hpop
    | some p =>
      have hinput := inputPop_eq_some.1 hpop
      rw [exec_charIn_cons rd hinput] at h
      exact (exec_charIn_cons (s := { s with mem := m }) rd hinput).trans (State.retire_with_mem h m)
  | _ => exact State.retire_with_mem h m

/-- Only IN depends on the stream: any other instruction does the same with another stream, and leaves that stream as it
is (R101). -/
theorem exec_with_input {i : Instr} {s t : State} (hi : i.opcode ≠ .charIn) (h : exec i s = .next t)
    (inp : Option (List Byte)) : exec i { s with input := inp } = .next { t with input := inp } := by
  cases i with
  | charIn rd => exact absurd rfl hi
  | lw rs rt imm =>
    rw [exec_lw] at h ⊢
    exact State.ite_retire_halt_with_input h inp
  | swo rs rt rd =>
    rw [exec_swo] at h ⊢
    exact State.ite_retire_halt_with_input h inp
  | assert rs imm =>
    rw [exec_assert] at h ⊢
    exact State.ite_retire_halt_with_input h inp
  | _ => exact State.retire_with_input h inp

/-- Settles O26: memory and the stream are replaced one after the other, each for the instructions that do not read it. -/
theorem onlyThreeTouchMemoryOrInput : Obligations.OnlyThreeTouchMemoryOrInput := by
  refine ⟨fun i s t m inp hi hexec => ?_, fun i s t inp hi hexec => exec_with_input hi hexec inp,
    fun rd s t m hexec => ?_⟩
  · simp only [List.mem_cons, List.not_mem_nil, or_false, not_or] at hi
    obtain ⟨hlw, hswo, hin⟩ := hi
    exact ⟨exec_keeps_mem hswo hexec, exec_keeps_input hin hexec,
      exec_with_input hin (exec_with_mem hlw hswo hexec m) inp⟩
  · have hlw : (Instr.charIn rd).opcode ≠ .lw := nofun
    have hswo : (Instr.charIn rd).opcode ≠ .swo := nofun
    exact ⟨exec_keeps_mem hswo hexec, exec_with_mem hlw hswo hexec m⟩

end Sys2Proof.Machine
end

section
/-! SUPPORT. The integer instructions ADDI, LUI and MULT (41_integer.md): what completing an instruction at the tail gives
whatever its own effect (R162, R163, R184, R193), and the effect of each of the three. -/

namespace Sys2Proof.Machine

/-! Completing at the tail. -/

/-- The entries after `append`: the old ones, less the head where the capacity was reached, and the new one (R162, R163). -/
theorem History.entries_of_append {cap : Nat} {e : Snapshot} {h h' : History} (happ : h.append cap e = some h') :
    h'.entries = (if h.size < cap then h.entries else h.entries.drop 1) ++ [e] := by
  obtain ⟨htail, hnow, hnewer, holder⟩ := History.append_spec happ
  have hold : h.entries = (h.now :: h.older).reverse := by rw [History.entries, htail, List.reverse_cons]
  have hnew : h'.entries = h'.older.reverse ++ [e] := by rw [History.entries, hnow, hnewer]
  rw [hnew, hold]
  rcases holder with ⟨hroom, ho⟩ | ⟨hfull, ho⟩
  · rw [ho, if_pos hroom]
  · rw [ho, if_neg (Nat.not_lt.2 hfull), List.drop_one, List.tail_reverse]

/-- Retiring an instruction is a completion of it. -/
theorem State.retire_completes {s t : State} {op : Opcode} {e : Snapshot} (h : s.retire op e = .next t) :
    Completes op s t := by
  have hnewer := State.retire_newer h
  obtain ⟨hnow, -⟩ := State.retire_keeps h
  obtain ⟨hist, happ, rfl⟩ := State.retire_spec h
  refine ⟨hnewer, ?_, Stats.count_bump s.stats op, Stats.total_bump s.stats op, rfl, rfl, rfl, rfl, rfl⟩
  rw [State.now_eq, hnow]
  exact History.entries_of_append happ

/-- An instruction that retires a snapshot from the state it started in completes at the tail, and that snapshot is the
current one then. -/
theorem exec_completes_of_eq_retire {i : Instr} {s : State} {e : Snapshot} (htail : s.hist.newer = [])
    (hexec : exec i s = s.retire i.opcode e) :
    ∃ t, exec i s = .next t ∧ Completes i.opcode s t ∧ t.now = e := by
  obtain ⟨_, -, hretire⟩ := State.retire_at_tail htail i.opcode e
  obtain ⟨hnow, -⟩ := State.retire_keeps hretire
  exact ⟨_, hexec.trans hretire, State.retire_completes hretire, hnow⟩

/-- `hi` and `lo` change by MULT alone, whatever the form of memory (R11, R24). -/
theorem exec_keeps_hiLo {i : Instr} {s t : State} (hi : i.opcode ≠ .mult) (h : exec i s = .next t) : sameHiLo s t := by
  rcases exec_cases h with ⟨r, -, rfl⟩ | ⟨s', e, hfrom, hretire⟩
  · exact ⟨rfl, rfl⟩
  · obtain ⟨rfl, -⟩ := State.retire_keeps hretire
    exact hfrom.hiLo hi

/-- Memory changes by SWO alone and the stream by IN alone (R11, R101). -/
theorem exec_keeps_memIn {i : Instr} {s t : State} (h : exec i s = .next t) (hswo : i.opcode ≠ .swo)
    (hin : i.opcode ≠ .charIn) : sameMemIn s t := ⟨exec_keeps_mem hswo h, exec_keeps_input hin h⟩

/-! The effects, in the library's own words. -/

theorem exec_addi (rs rt : RegIx) (imm : BitVec 16) (s : State) :
    exec (.addi rs rt imm) s =
      s.retire .addi (s.now.fallThrough.writeX rt (s.now.readX rs + imm.signExtend 32)) := by
  rw [← immSigned_eq]; rfl

theorem exec_lui (rt : RegIx) (imm : BitVec 16) (s : State) :
    exec (.lui rt imm) s = s.retire .lui (s.now.fallThrough.writeX rt (imm.setWidth 32 <<< 16)) := by
  rw [← immUpper_eq]; rfl

theorem exec_mult (rs rt : RegIx) (s : State) :
    exec (.mult rs rt) s =
      s.retire .mult (s.now.fallThrough.writeHiLo (highHalf (signedProduct (s.now.readX rs) (s.now.readX rt)))
        (lowHalf (signedProduct (s.now.readX rs) (s.now.readX rt)))) := rfl

/-- The two halves together are the exact product (R112). -/
theorem toInt_highHalf_append_lowHalf_signedProduct (a b : Word) :
    (highHalf (signedProduct a b) ++ lowHalf (signedProduct a b)).toInt = a.toInt * b.toInt :=
  (congrArg BitVec.toInt (highHalf_append_lowHalf _)).trans (toInt_signedProduct a b)

/-- Settles O11: `hi` and `lo` are the halves of the 64-bit product, which is exact. -/
theorem multGivesTheSignedProduct : Obligations.MultGivesTheSignedProduct := by
  intro s rs rt htail
  obtain ⟨t, hexec, hcompletes, hnow⟩ := exec_completes_of_eq_retire htail (exec_mult rs rt s)
  obtain ⟨hx, hf⟩ := exec_keeps_registers hexec
  refine ⟨t, hexec, hcompletes, ?_, hx, hf, exec_keeps_memIn hexec nofun nofun, congrArg Snapshot.pc hnow,
    congrArg Snapshot.patch hnow⟩
  rw [hnow]
  exact toInt_highHalf_append_lowHalf_signedProduct (s.now.readX rs) (s.now.readX rt)

/-- An instruction whose one effect is to write a general register completes at the tail with that register written, all
else as it was, and `pc` moved on by 4 (R11, R184). -/
theorem exec_writeX_completes {i : Instr} {s : State} {rd : RegIx} {v : Word} (htail : s.hist.newer = [])
    (hexec : exec i s = s.retire i.opcode (s.now.fallThrough.writeX rd v)) (hmult : i.opcode ≠ .mult)
    (hswo : i.opcode ≠ .swo) (hin : i.opcode ≠ .charIn) :
    ∃ t, exec i s = .next t ∧ Completes i.opcode s t ∧ t.now.readX rd = v ∧
      sameXBut i.destX s t ∧ sameFBut i.destF s t ∧ sameHiLo s t ∧ sameMemIn s t ∧
      t.now.pc = s.now.pc + 4 ∧ t.now.patch = none := by
  obtain ⟨t, hnext, hcompletes, hnow⟩ := exec_completes_of_eq_retire htail hexec
  obtain ⟨hx, hf⟩ := exec_keeps_registers hnext
  refine ⟨t, hnext, hcompletes, ?_, hx, hf, exec_keeps_hiLo hmult hnext, exec_keeps_memIn hnext hswo hin,
    congrArg Snapshot.pc hnow, congrArg Snapshot.patch hnow⟩
  rw [hnow, Snapshot.readX_writeX, if_pos rfl]

/-- Settles O9: ADDI's one effect is the sum in `x[rt]`. -/
theorem addiAddsTheImmediate : Obligations.AddiAddsTheImmediate :=
  fun s rs rt imm htail => exec_writeX_completes htail (exec_addi rs rt imm s) nofun nofun nofun

/-- Settles O10: LUI's one effect is the shifted immediate in `x[rt]`. -/
theorem luiLoadsTheUpperHalf : Obligations.LuiLoadsTheUpperHalf :=
  fun s rt imm htail => exec_writeX_completes htail (exec_lui rt imm s) nofun nofun nofun

end Sys2Proof.Machine
end

section
/-! SUPPORT. The control transfers BEQ and J (42_control_transfer.md): each is the one choice of the next `pc`, and an
instruction that only chooses the next `pc` completes at the tail with all else as it was (R11, R184). -/

namespace Sys2Proof.Machine

/-- Both outcomes of BEQ in one: where the patterns differ, falling through is going to `pc + 4` (R120). -/
theorem exec_beq (rs rt : RegIx) (imm : BitVec 16) (s : State) :
    exec (.beq rs rt imm) s =
      s.retire .beq (s.now.goTo (if s.now.readX rs = s.now.readX rt then s.now.pc + BitVec.ofInt 32 (4 * imm.toInt)
        else s.now.pc + 4)) := by
  rw [← branchTarget_eq, apply_ite s.now.goTo]
  exact congrArg (s.retire .beq) (if_congr samePattern_iff rfl rfl)

theorem exec_j (addr : BitVec 26) (s : State) :
    exec (.j addr) s = s.retire .j (s.now.goTo (s.now.pc.extractLsb' 28 4 ++ addr ++ 0#2)) := by
  rw [← jumpTarget_eq]; rfl

/-- An instruction whose one effect is the next `pc` completes at the tail with that `pc` and all else as it was. The
registers are those of `goTo`, so no register is written, whatever the instruction names. -/
theorem exec_goTo_completes {i : Instr} {s : State} {p : Word} (htail : s.hist.newer = [])
    (hexec : exec i s = s.retire i.opcode (s.now.goTo p)) (hswo : i.opcode ≠ .swo) (hin : i.opcode ≠ .charIn) :
    ∃ t, exec i s = .next t ∧ Completes i.opcode s t ∧ t.now.pc = p ∧
      sameXBut none s t ∧ sameFBut none s t ∧ sameHiLo s t ∧ sameMemIn s t ∧ t.now.patch = none := by
  obtain ⟨t, hnext, hcompletes, hnow⟩ := exec_completes_of_eq_retire htail hexec
  have hx : sameXBut none s t := fun r _ => by rw [hnow, Snapshot.readX_goTo]
  have hf : sameFBut none s t := fun r _ => by rw [hnow, Snapshot.readF_goTo]
  have hhiLo : sameHiLo s t := by rw [sameHiLo, hnow, Snapshot.goTo_hi, Snapshot.goTo_lo]; exact ⟨rfl, rfl⟩
  exact ⟨t, hnext, hcompletes, congrArg Snapshot.pc hnow, hx, hf, hhiLo, exec_keeps_memIn hnext hswo hin,
    congrArg Snapshot.patch hnow⟩

/-- Settles O12: BEQ's one effect is the next `pc`, chosen by the two patterns. -/
theorem beqBranchesOnEqualPatterns : Obligations.BeqBranchesOnEqualPatterns :=
  fun s rs rt imm htail => exec_goTo_completes htail (exec_beq rs rt imm s) nofun nofun

/-- Settles O13: J's one effect is the next `pc`, put together from the jump's own four top bits and the address. -/
theorem jumpKeepsTheTopFourBits : Obligations.JumpKeepsTheTopFourBits :=
  fun s addr htail => exec_goTo_completes htail (exec_j addr s) nofun nofun

end Sys2Proof.Machine
end

section
/-! SUPPORT. The load LW and the store SWO in bounds (43_load_store.md): the load is one more write of a general register,
the store completes from the state whose memory it has already written. -/

namespace Sys2Proof.Machine

/-- An instruction that retires from the state it started in but for memory and the stream completes at the tail like any
other, and leaves that memory and that stream. -/
theorem exec_completes_of_eq_retire_with {i : Instr} {s : State} {e : Snapshot} {m : Memory} {inp : Option (List Byte)}
    (htail : s.hist.newer = []) (hexec : exec i s = ({ s with mem := m, input := inp } : State).retire i.opcode e) :
    ∃ t, exec i s = .next t ∧ Completes i.opcode s t ∧ t.now = e ∧ t.mem = m ∧ t.input = inp := by
  obtain ⟨_, -, hretire⟩ := State.retire_at_tail (s := { s with mem := m, input := inp }) htail i.opcode e
  obtain ⟨hnow, hmem, hinput, -⟩ := State.retire_keeps hretire
  obtain ⟨hnewer, hentries, hcounts, htotal, hsetup, hbp, harrivals, hrunning, hhalt⟩ := State.retire_completes hretire
  exact ⟨_, hexec.trans hretire, ⟨hnewer, hentries, hcounts, htotal, hsetup, hbp, harrivals, hrunning, hhalt⟩,
    hnow, hmem, hinput⟩

/-- Settles O14: in bounds LW's one effect is the word at the index in `x[rt]`. -/
theorem lwLoadsTheWord : Obligations.LwLoadsTheWord :=
  fun s rs rt imm htail hin =>
    exec_writeX_completes htail ((exec_lw rs rt imm s).trans (if_pos hin)) nofun nofun nofun

/-- Settles O15: in bounds SWO retires its patch from the state with the word stored, and a store to canonical memory
changes that word alone, by words and by bytes. -/
theorem swoStoresTheWord : Obligations.SwoStoresTheWord := by
  intro s rs rt rd htail hwf hin
  obtain ⟨t, hexec, hcompletes, hnow, hmem, hinput⟩ :=
    exec_completes_of_eq_retire_with htail ((exec_swo rs rt rd s).trans (if_pos hin))
  obtain ⟨hx, hf⟩ := exec_keeps_registers hexec
  refine ⟨t, hexec, hcompletes, fun j => ?word, fun a ha => ?byte, congrArg Snapshot.patch hnow, hx, hf,
    exec_keeps_hiLo (i := .swo rs rt rd) nofun hexec, hinput, congrArg Snapshot.pc hnow⟩
  case word =>
    rw [hmem, Memory.readWord_writeWord hwf]
    exact if_congr eq_comm rfl rfl
  case byte => rw [hmem, Memory.read_writeWord hwf, if_neg ha]

end Sys2Proof.Machine
end

section
/-! SUPPORT. The float instructions FSUB, FABS and FTOI (44_float.md): the bits that FABS keeps, and the two ways their one
effect goes, to a float register (R142, R143) or to a general one (R144). -/

namespace Sys2Proof.Machine

/-- FABS keeps the bits below the sign bit and no other (R143). -/
theorem getLsbD_fabs32 (a : Word) (i : Nat) : (fabs32 a).getLsbD i = (a.getLsbD i && decide (i < 31)) := by
  have hmask : 0x7FFFFFFF#32 = (BitVec.allOnes 31).setWidth 32 := rfl
  have hbit : (decide (i < 32) && decide (i < 31)) = decide (i < 31) := by
    rw [← Bool.decide_and]
    exact decide_eq_decide.2 (by omega)
  rw [fabs32, hmask, BitVec.getLsbD_and, BitVec.getLsbD_setWidth, BitVec.getLsbD_allOnes, hbit]

/-- An instruction whose one effect is to write a float register completes at the tail with that register written, all
else as it was, and `pc` moved on by 4 (R11, R184). -/
theorem exec_writeF_completes {i : Instr} {s : State} {rd : RegIx} {v : Word} (htail : s.hist.newer = [])
    (hexec : exec i s = s.retire i.opcode (s.now.fallThrough.writeF rd v)) (hmult : i.opcode ≠ .mult)
    (hswo : i.opcode ≠ .swo) (hin : i.opcode ≠ .charIn) :
    ∃ t, exec i s = .next t ∧ Completes i.opcode s t ∧ t.now.readF rd = v ∧
      sameXBut i.destX s t ∧ sameFBut i.destF s t ∧ sameHiLo s t ∧ sameMemIn s t ∧
      t.now.pc = s.now.pc + 4 ∧ t.now.patch = none := by
  obtain ⟨t, hnext, hcompletes, hnow⟩ := exec_completes_of_eq_retire htail hexec
  obtain ⟨hx, hf⟩ := exec_keeps_registers hnext
  refine ⟨t, hnext, hcompletes, ?_, hx, hf, exec_keeps_hiLo hmult hnext, exec_keeps_memIn hnext hswo hin,
    congrArg Snapshot.pc hnow, congrArg Snapshot.patch hnow⟩
  rw [hnow, Snapshot.readF_writeF, if_pos rfl]

theorem exec_ftoi (rs rd : RegIx) (s : State) :
    exec (.ftoi rs rd) s = s.retire .ftoi (s.now.fallThrough.writeX rd (ftoi32 s.setup (s.now.readF rs))) := rfl

/-- Settles O17: FABS's one effect is the masked pattern in `f[rd]`, and the mask is read bit by bit. -/
theorem fabsClearsTheSign : Obligations.FabsClearsTheSign := by
  intro s rs rd htail
  obtain ⟨t, hexec, hcompletes, hread, hframe⟩ :=
    exec_writeF_completes htail (exec_fabs rs rd s) nofun nofun nofun
  refine ⟨t, hexec, hcompletes, ?sign, fun i hi => ?kept, hframe⟩
  case sign => rw [hread, getLsbD_fabs32, decide_eq_false (by decide), Bool.and_false]
  case kept => rw [hread, getLsbD_fabs32, decide_eq_true hi, Bool.and_true]

/-- Settles O16: FSUB's one effect is the configured difference in `f[rd]`. -/
theorem fsubWritesTheDifference : Obligations.FsubWritesTheDifference :=
  fun s rs rt rd htail => exec_writeF_completes htail (exec_fsub rs rt rd s) nofun nofun nofun

/-- Settles O18: FTOI's one effect is the configured truncation in `x[rd]`. -/
theorem ftoiWritesTheTruncation : Obligations.FtoiWritesTheTruncation :=
  fun s rs rd htail => exec_writeX_completes htail (exec_ftoi rs rd s) nofun nofun nofun

end Sys2Proof.Machine
end

section
/-! SUPPORT. ASSERT and IN where they complete (45_system.md): a passing ASSERT only falls through, and IN is a write of a
general register from the state whose stream it has already consumed. -/

namespace Sys2Proof.Machine

/-- A byte is zero-extended to a word: its number stays (D16). -/
theorem toNat_byteToWord (b : Byte) : (byteToWord b).toNat = b.toNat :=
  BitVec.toNat_setWidth_of_le (by decide)

/-- Settles O19: where the patterns agree, ASSERT's one effect is to go on at `pc + 4`. -/
theorem assertPassesOnEquality : Obligations.AssertPassesOnEquality := by
  intro s rs imm htail heq
  obtain ⟨t, hexec, hcompletes, hpc, hx, hf, hhiLo, hmemIn, hpatch⟩ :=
    exec_goTo_completes htail ((exec_assert rs imm s).trans (if_pos heq)) nofun nofun
  exact ⟨t, hexec, hcompletes, hx, hf, hhiLo, hmemIn, hpc, hpatch⟩

/-- Settles O20: IN retires the byte in `x[rd]` from the state whose stream has lost it. -/
theorem inReadsOneByte : Obligations.InReadsOneByte := by
  intro s rd b rest htail hinput
  obtain ⟨t, hexec, hcompletes, hnow, hmem, hrest⟩ :=
    exec_completes_of_eq_retire_with htail (exec_charIn_cons rd hinput)
  obtain ⟨hx, hf⟩ := exec_keeps_registers hexec
  have hread : t.now.readX rd = byteToWord b := by rw [hnow, Snapshot.readX_writeX, if_pos rfl]
  exact ⟨t, hexec, hcompletes, hread ▸ toNat_byteToWord b, hrest, hmem, hx, hf,
    exec_keeps_hiLo (i := .charIn rd) nofun hexec, congrArg Snapshot.pc hnow, congrArg Snapshot.patch hnow⟩

end Sys2Proof.Machine
end

section
/-! SUPPORT. Patches (R26, R164, R165, R167): what it is that a patch leads from one memory to another, which the two
directions of the invariant, a store, and every move of the cursor have in common. -/

namespace Sys2Proof.Machine

/-- The patch leads from memory `m` to memory `m'`: it lies in data memory, `m` holds the word it replaced, `m'` the word
it wrote, redoing it on `m` gives `m'` and undoing it on `m'` gives `m`. Without a patch the two are one memory. -/
structure PatchLeads (words : Nat) (p : Option Patch) (m m' : Memory) : Prop where
  prior : ∀ q, p = some q → q.idx < words ∧ m.readWord q.idx = q.prior
  new : ∀ q, p = some q → q.idx < words ∧ m'.readWord q.idx = q.new
  redo : redoPatch p m = m'
  undo : undoPatch p m' = m

/-- Redone on a memory that holds the word it replaced, a patch leads to the outcome. -/
theorem PatchLeads.of_prior {words : Nat} {p : Option Patch} {m : Memory} (hwf : m.wf)
    (hprior : ∀ q, p = some q → q.idx < words ∧ m.readWord q.idx = q.prior) :
    PatchLeads words p m (redoPatch p m) := by
  refine ⟨hprior, fun q hq => ⟨(hprior q hq).1, ?new⟩, rfl, ?undo⟩
  case new => rw [hq, redoPatch, Memory.readWord_writeWord hwf, if_pos rfl]
  case undo =>
    cases p with
    | none => rfl
    | some q => rw [redoPatch, undoPatch, Memory.writeWord_writeWord hwf, ← (hprior q rfl).2, Memory.writeWord_self hwf]

/-- To a memory that holds the word it wrote, a patch leads from where it is undone. -/
theorem PatchLeads.of_new {words : Nat} {p : Option Patch} {m : Memory} (hwf : m.wf)
    (hnew : ∀ q, p = some q → q.idx < words ∧ m.readWord q.idx = q.new) :
    PatchLeads words p (undoPatch p m) m := by
  refine ⟨fun q hq => ⟨(hnew q hq).1, ?prior⟩, hnew, ?redo, rfl⟩
  case prior => rw [hq, undoPatch, Memory.readWord_writeWord hwf, if_pos rfl]
  case redo =>
    cases p with
    | none => rfl
    | some q => rw [undoPatch, redoPatch, Memory.writeWord_writeWord hwf, ← (hnew q rfl).2, Memory.writeWord_self hwf]

section
variable {words : Nat} {p : Option Patch} {m m' : Memory}

theorem PatchLeads.wf (h : PatchLeads words p m m') (hwf : m.wf) : m'.wf := h.redo ▸ redoPatch_wf hwf p

theorem PatchLeads.within (h : PatchLeads words p m m') (hin : m.within words) : m'.within words := by
  rw [← h.redo]
  cases p with
  | none => exact hin
  | some q => exact Memory.writeWord_within hin (h.prior q rfl).1 q.new

theorem PatchLeads.within_back (h : PatchLeads words p m m') (hin : m'.within words) : m.within words := by
  rw [← h.undo]
  cases p with
  | none => exact hin
  | some q => exact Memory.writeWord_within hin (h.prior q rfl).1 q.prior

end

/-- What an instruction retires records its one store: the patch leads from the memory it started in to the one it
leaves (R54). -/
theorem RetiresFrom.patchLeads {i : Instr} {s s' : State} {e : Snapshot} (h : RetiresFrom i s s' e)
    (hwf : s.mem.wf) : PatchLeads s.setup.memWords e.patch s.mem s'.mem := by
  rcases h.store with ⟨-, hpatch, hmem⟩ | ⟨idx, v, -, hin, hpatch, hmem⟩
  · rw [hpatch, hmem]
    exact .of_prior (p := none) hwf nofun
  · rw [hpatch, hmem]
    refine .of_prior (p := some ⟨idx, s.mem.readWord idx, v⟩) hwf fun q hq => ?_
    cases hq
    exact ⟨hin, rfl⟩

/-! The patches over a window. -/

theorem PatchesBack.leads {words : Nat} {m : Memory} {e p : Snapshot} {rest : List Snapshot} (hwf : m.wf)
    (h : PatchesBack words m e (p :: rest)) : PatchLeads words e.patch (undoPatch e.patch m) m := .of_new hwf h.1

theorem PatchesForward.leads {words : Nat} {m : Memory} {e : Snapshot} {rest : List Snapshot} (hwf : m.wf)
    (h : PatchesForward words m (e :: rest)) : PatchLeads words e.patch m (redoPatch e.patch m) := .of_prior hwf h.1

theorem PatchesBack.cons {words : Nat} {m m' : Memory} {e p : Snapshot} {rest : List Snapshot}
    (hlead : PatchLeads words e.patch m m') (h : PatchesBack words m p rest) : PatchesBack words m' e (p :: rest) :=
  ⟨hlead.new, by rwa [hlead.undo]⟩

theorem PatchesForward.cons {words : Nat} {m m' : Memory} {e : Snapshot} {rest : List Snapshot}
    (hlead : PatchLeads words e.patch m m') (h : PatchesForward words m' rest) : PatchesForward words m (e :: rest) :=
  ⟨hlead.prior, by rwa [hlead.redo]⟩

/-- Dropping entries at the head asks less of the patches. -/
theorem PatchesBack.of_append {words : Nat} {gone : List Snapshot} {l : List Snapshot} {m : Memory} {e : Snapshot}
    (h : PatchesBack words m e (l ++ gone)) : PatchesBack words m e l := by
  induction l generalizing m e with
  | nil => trivial
  | cons p rest ih => exact ⟨h.1, ih h.2⟩

theorem undoAll_cons_of_leads {words : Nat} {m m' : Memory} {e : Snapshot} (hlead : PatchLeads words e.patch m m')
    (p : Snapshot) (rest : List Snapshot) : undoAll m' e (p :: rest) = undoAll m p rest := by
  rw [undoAll, hlead.undo]

/-- Over a window whose head is `d`, the patch of the entry after the head, `(e :: l).getLast`, leads from the base to what
the base is once the head is gone (R167, R163). -/
theorem PatchesBack.leads_base {words : Nat} {l : List Snapshot} {d : Snapshot} {m : Memory} {e : Snapshot} (hwf : m.wf)
    (h : PatchesBack words m e (l ++ [d])) :
    PatchLeads words ((e :: l).getLast (List.cons_ne_nil e l)).patch (undoAll m e (l ++ [d])) (undoAll m e l) := by
  induction l generalizing m e with
  | nil => exact h.leads hwf
  | cons p rest ih => exact ih (undoPatch_wf hwf e.patch) h.2

theorem redoAll_concat (m : Memory) (es : List Snapshot) (e : Snapshot) :
    redoAll m (es ++ [e]) = redoPatch e.patch (redoAll m es) := List.foldl_concat _ _ _ _

/-- The patches redone from the base, oldest first, give memory back (R167). -/
theorem PatchesBack.redoAll_undoAll {words : Nat} {l : List Snapshot} {m : Memory} {e : Snapshot} (hwf : m.wf)
    (h : PatchesBack words m e l) : redoAll (undoAll m e l) ((l.reverse ++ [e]).drop 1) = m := by
  induction l generalizing m e with
  | nil => rfl
  | cons p rest ih =>
    have hdrop : ((p :: rest).reverse ++ [e]).drop 1 = (rest.reverse ++ [p]).drop 1 ++ [e] := by
      rw [List.reverse_cons, List.drop_append_of_le_length (by simp)]
    rw [hdrop, undoAll, redoAll_concat, ih (undoPatch_wf hwf e.patch) h.2]
    exact (h.leads hwf).redo

end Sys2Proof.Machine
end

section
/-! SUPPORT. The operations of the history buffer (46_history_buffer.md, section 2): `append`, `advance` and `rewind` by
entries, cursor and memory, and what any number of rewinds does to the cursor. -/

namespace Sys2Proof.Machine

theorem History.length_entries (h : History) : h.entries.length = h.size := by
  simp [History.entries, History.size]
  omega

/-- The cursor is at the tail exactly where no entry is after it. -/
theorem History.newer_eq_nil_iff {h : History} : h.newer = [] ↔ h.cursor + 1 = h.size := by
  rw [History.cursor, History.size, ← List.length_eq_zero_iff]
  omega

theorem History.older_eq_nil_iff {h : History} : h.older = [] ↔ h.cursor = 0 := List.length_eq_zero_iff.symm

/-- The size after `append`, within capacity (R162, R163). -/
theorem History.size_of_append {cap : Nat} {e : Snapshot} {h h' : History} (happ : h.append cap e = some h')
    (hsize : h.size ≤ cap) : h'.size = min (h.size + 1) cap := by
  obtain ⟨htail, -, hnewer, holder⟩ := History.append_spec happ
  simp only [History.size, htail, hnewer, List.length_nil] at hsize holder ⊢
  rcases holder with ⟨hroom, ho⟩ | ⟨hfull, ho⟩
  · rw [ho, List.length_cons]
    omega
  · rw [ho, List.length_dropLast, List.length_cons]
    omega

/-- Settles O45: whether `append` answers, its entries, and its size are each a fact of their own. -/
theorem appendAddsTheTailAndEvicts : Obligations.AppendAddsTheTailAndEvicts := by
  intro cap e h
  refine ⟨?_, fun h' happ => ?_⟩
  · rw [ne_eq, ← History.newer_eq_nil_iff, ← History.append_isSome cap e, Bool.not_eq_true, Option.isSome_eq_false_iff,
      Option.isNone_iff_eq_none]
  · obtain ⟨-, hnow, hnewer, -⟩ := History.append_spec happ
    refine ⟨?_, hnow, History.newer_eq_nil_iff.1 hnewer, fun _ hsize => History.size_of_append happ hsize⟩
    rw [History.entries_of_append happ]
    by_cases hroom : h.size < cap
    · rw [if_pos hroom, if_neg (by omega)]
    · rw [if_neg hroom, if_pos (by omega)]

/-- After `append` the entries before the new one are the old ones, or the old ones but for some at the head (R162, R163). -/
theorem History.exists_older_append_eq {cap : Nat} {e : Snapshot} {h h' : History} (happ : h.append cap e = some h') :
    ∃ gone, h'.older ++ gone = h.now :: h.older := by
  obtain ⟨-, -, -, ⟨-, ho⟩ | ⟨-, ho⟩⟩ := History.append_spec happ
  · exact ⟨[], by rw [ho, List.append_nil]⟩
  · exact ⟨[_], by rw [ho, List.dropLast_concat_getLast (List.cons_ne_nil _ _)]⟩

/-- At the tail of a full history of at least two entries the cursor is not at the head. -/
theorem History.older_ne_nil {cap : Nat} {h : History} (hcap : 2 ≤ cap) (htail : h.newer = []) (hfull : cap ≤ h.size) :
    h.older ≠ [] := by
  intro hnil
  have hsize : h.size = 1 := by rw [History.size, hnil, htail]; rfl
  omega

/-- With C at least 2 the entry before the appended one is retained (R228, D29). -/
theorem History.older_of_append {cap : Nat} {e : Snapshot} {h h' : History} (hcap : 2 ≤ cap)
    (happ : h.append cap e = some h') : ∃ rest, h'.older = h.now :: rest := by
  obtain ⟨htail, -, -, ⟨-, ho⟩ | ⟨hfull, ho⟩⟩ := History.append_spec happ
  · exact ⟨_, ho⟩
  · exact ⟨_, ho.trans (List.dropLast_cons_of_ne_nil (History.older_ne_nil hcap htail hfull))⟩

/-- `advance` where an entry is later (R164). -/
theorem State.advance_of_newer {s : State} {e : Snapshot} {rest : List Snapshot} (h : s.hist.newer = e :: rest) :
    s.advance =
      some { s with hist := ⟨s.hist.now :: s.hist.older, e, rest⟩, mem := redoPatch e.patch s.mem } := by
  simp only [State.advance, History.advance, h]

/-- `rewind` where an entry is earlier (R165). -/
theorem State.rewind_of_older {s : State} {p : Snapshot} {rest : List Snapshot} (h : s.hist.older = p :: rest) :
    s.rewind =
      { s with hist := ⟨rest, p, s.hist.now :: s.hist.newer⟩, mem := undoPatch s.hist.now.patch s.mem } := by
  simp only [State.rewind, History.rewind, h]

/-- Settles O46: by what `advance` does to the cut history; a patch redone is the store of its new word. -/
theorem advanceRedoesTheStore : Obligations.AdvanceRedoesTheStore := by
  intro s
  refine ⟨State.advance_eq_none.trans History.newer_eq_nil_iff, fun t hadvance => ?_⟩
  have hentries := State.advance_entries hadvance
  obtain ⟨e, rest, hnewer, rfl⟩ := State.advance_spec hadvance
  refine ⟨hentries, rfl, ?next, fun hnone => ?noStore, fun q hq => ?store, rfl⟩
  case next => rw [History.entries, hnewer]; simp [History.cursor]
  case noStore => exact congrArg (redoPatch · s.mem) hnone
  case store => exact congrArg (redoPatch · s.mem) hq

/-- Settles O47: by what `rewind` does to the cut history; a patch undone is the store of its prior word. -/
theorem rewindUndoesTheStore : Obligations.RewindUndoesTheStore := by
  intro s
  rcases s.rewind_spec with ⟨hnil, hrewind⟩ | ⟨e, rest, holder, hrewind⟩
  · exact ⟨fun _ => hrewind, fun hne => absurd (History.older_eq_nil_iff.1 hnil) hne⟩
  · refine ⟨fun hzero => by simp [History.older_eq_nil_iff.2 hzero] at holder, fun _ => ⟨s.rewind_entries, ?_⟩⟩
    rw [hrewind]
    refine ⟨?cursor, fun hnone => ?noStore, fun q hq => ?store, rfl⟩
    case cursor => rw [History.cursor, History.cursor, holder, List.length_cons]
    case noStore => exact congrArg (undoPatch · s.mem) hnone
    case store => exact congrArg (undoPatch · s.mem) hq

theorem State.rewind_size (s : State) : s.rewind.hist.size = s.hist.size := by
  rw [← History.length_entries, State.rewind_entries, History.length_entries]

theorem State.advance_size {s t : State} (h : s.advance = some t) : t.hist.size = s.hist.size := by
  rw [← History.length_entries, State.advance_entries h, History.length_entries]

theorem State.rewind_cursor (s : State) : s.rewind.hist.cursor = s.hist.cursor - 1 := by
  by_cases hzero : s.hist.cursor = 0
  · rw [(rewindUndoesTheStore s).1 hzero, hzero]
  · obtain ⟨-, hcursor, -⟩ := (rewindUndoesTheStore s).2 hzero
    omega

theorem State.rewindTimes_cursor (k : Nat) (s : State) : (s.rewindTimes k).hist.cursor = s.hist.cursor - k := by
  induction k generalizing s with
  | zero => rfl
  | succ k ih => rw [State.rewindTimes, ih, State.rewind_cursor]; omega

end Sys2Proof.Machine
end

section
/-! SUPPORT. The invariant of the engine (46_history_buffer.md, sections 1 and 3): it holds at construction, each move of
the cursor and each executed instruction keeps it, and so does every step. -/

namespace Sys2Proof

/-- What a legal configuration is (R7). -/
theorem Setup.wf_iff {c : Setup} :
    c.wf = true ↔
      2 ≤ c.capacity ∧ c.opcodes.injective = true ∧ c.memInit.wf = true ∧ c.memInit.within c.memWords = true := by
  simp only [Setup.wf, Bool.and_eq_true, decide_eq_true_eq, and_assoc]

end Sys2Proof

namespace Sys2Proof.Machine

/-- Genesis over MEM_INIT meets the invariant, whatever the stream and the schedule (R161, R38). -/
theorem State.Inv.of_genesis {s : State} (hsetup : s.setup.wf = true) (hhist : s.hist = ⟨[], Snapshot.genesis, []⟩)
    (hmem : s.mem = s.setup.memInit) (hhalt : s.halt = none) (hstats : s.stats = Stats.zero) (hbp : risingBp s.bp) :
    s.Inv := by
  obtain ⟨hcap, -, hwf, hwithin⟩ := Setup.wf_iff.1 hsetup
  refine ⟨hsetup, hmem ▸ hwf, hmem ▸ hwithin, ?bound, by simp [hhalt], by rw [hstats]; rfl, hbp, ?aligned, ?back, ?forward⟩
  case bound => rw [hhist]; exact le_of_lt hcap
  case aligned => rw [hhist]; intro e he; rw [List.mem_singleton.1 he]; rfl
  case back => rw [hhist]; trivial
  case forward => rw [hhist]; trivial

/-- Settles O51: construction is genesis over MEM_INIT, and the default setup is legal. -/
theorem invariantHoldsAtConstruction : Obligations.InvariantHoldsAtConstruction := by
  have hconstruct : ∀ (c : Setup) (input : Option (List Byte)), c.wf = true → (State.construct c input).Inv :=
    fun c input hwf => .of_genesis hwf rfl rfl rfl rfl .nil
  exact ⟨hconstruct, hconstruct Setup.default none (by decide)⟩

/-- A legal configuration has C at least 2 (R228, D29). -/
theorem State.Inv.two_le_capacity {s : State} (h : s.Inv) : 2 ≤ s.setup.capacity := (Setup.wf_iff.1 h.setup).1

/-- Settles O53: memory agrees with the patches back to the head, and they are all redone from the base. -/
theorem memoryIsBasePlusPatches : Obligations.MemoryIsBasePlusPatches := by
  intro s hinv
  have hupTo : s.hist.entries.take (s.hist.cursor + 1) = s.hist.older.reverse ++ [s.hist.now] := by
    rw [History.entries, History.cursor, ← List.length_reverse, List.take_length_add_append, List.take_one, List.head?_cons,
      Option.toList_some]
  rw [hupTo]
  exact (hinv.back.redoAll_undoAll hinv.memWf).symm

/-- The two states have the same configuration, history and memory: they differ in control state, stream and statistics
alone. -/
structure SameWindow (s t : State) : Prop where
  setup : t.setup = s.setup
  hist : t.hist = s.hist
  mem : t.mem = s.mem

/-- Between states with the same window and statistics, the invariant asks for the halted engine and the breakpoints only. -/
theorem State.Inv.of_sameWindow {s t : State} (h : s.Inv) (hsame : SameWindow s t) (hstats : t.stats = s.stats)
    (hhalt : t.halt.isSome = true → t.running = false) (hbp : risingBp t.bp) : t.Inv := by
  obtain ⟨hsetup, hhist, hmem⟩ := hsame
  refine ⟨hsetup ▸ h.setup, hmem ▸ h.memWf, ?within, ?bound, hhalt, hstats ▸ h.totalIsSum, hbp, hhist ▸ h.aligned, ?back,
    ?forward⟩
  case within => rw [hsetup, hmem]; exact h.memWithin
  case bound => rw [hsetup, hhist]; exact h.bound
  case back => rw [hsetup, hmem, hhist]; exact h.back
  case forward => rw [hsetup, hmem, hhist]; exact h.forward

/-- A rewind moves the patch it undoes from the back of the window to its front. -/
theorem State.Inv.rewind {s : State} (h : s.Inv) : s.rewind.Inv := by
  have hentries := s.rewind_entries
  have hsize := s.rewind_size
  rcases s.rewind_spec with ⟨-, hrewind⟩ | ⟨p, rest, holder, hrewind⟩
  · rw [hrewind]
    exact h
  · have hback := holder ▸ h.back
    have hlead := hback.leads h.memWf
    rw [hrewind] at hentries hsize ⊢
    exact ⟨h.setup, undoPatch_wf h.memWf _, hlead.within_back h.memWithin, hsize.trans_le h.bound, h.haltStops, h.totalIsSum,
      h.bpRising, hentries ▸ h.aligned, hback.2, .cons hlead h.forward⟩

/-- An advance moves the patch it redoes from the front of the window to its back. -/
theorem State.Inv.advance {s t : State} (h : s.Inv) (hadvance : s.advance = some t) : t.Inv := by
  have hentries := State.advance_entries hadvance
  have hsize := State.advance_size hadvance
  obtain ⟨e, rest, hnewer, rfl⟩ := State.advance_spec hadvance
  have hforward := hnewer ▸ h.forward
  have hlead := hforward.leads h.memWf
  exact ⟨h.setup, hlead.wf h.memWf, hlead.within h.memWithin, hsize.trans_le h.bound, h.haltStops, h.totalIsSum,
    h.bpRising, hentries ▸ h.aligned, .cons hlead h.back, hforward.2⟩

theorem State.Inv.countOne {s : State} (h : s.Inv) (op : Opcode) : (s.countOne op).Inv :=
  ⟨h.setup, h.memWf, h.memWithin, h.bound, h.haltStops,
    by rw [State.countOne_stats, Stats.total_bump, Stats.sum_bump, h.totalIsSum],
    h.bpRising, h.aligned, h.back, h.forward⟩

/-- Retiring a snapshot puts its patch at the back of the window, from which the head may go. -/
theorem State.Inv.retire {i : Instr} {s s' t : State} {e : Snapshot} (h : s.Inv) (hfrom : RetiresFrom i s s' e)
    (hretire : s'.retire i.opcode e = .next t) : t.Inv := by
  obtain ⟨hist, happ, rfl⟩ := State.retire_spec hretire
  rw [hfrom.hist, hfrom.setup] at happ
  obtain ⟨-, hnow, hnewer, -⟩ := History.append_spec happ
  obtain ⟨gone, holder⟩ := History.exists_older_append_eq happ
  have hlead := hfrom.patchLeads h.memWf
  refine State.Inv.countOne (s := { s' with hist := hist }) ⟨?setup, hlead.wf h.memWf, ?within, ?bound, ?haltStops,
    ?totalIsSum, ?bpRising, ?aligned, ?back, ?forward⟩ i.opcode
  case setup => exact hfrom.setup ▸ h.setup
  case within => exact hfrom.setup ▸ hlead.within h.memWithin
  case bound =>
    change hist.size ≤ s'.setup.capacity
    rw [History.size_of_append happ h.bound, hfrom.setup]
    exact Nat.min_le_right _ _
  case haltStops =>
    change s'.halt.isSome = true → s'.running = false
    rw [hfrom.halt, hfrom.running]
    exact h.haltStops
  case totalIsSum =>
    change s'.stats.total = s'.stats.sum
    rw [hfrom.stats, h.totalIsSum]
  case bpRising => exact hfrom.bp ▸ h.bpRising
  case aligned =>
    intro e' he'
    rcases History.mem_entries_of_append happ he' with hold | rfl
    · exact h.aligned e' hold
    · exact hfrom.aligned (h.aligned _ s.hist.now_mem_entries)
  case back =>
    change PatchesBack s'.setup.memWords s'.mem hist.now hist.older
    rw [hfrom.setup, hnow]
    exact .of_append (gone := gone) (holder ▸ .cons hlead h.back)
  case forward =>
    change PatchesForward s'.setup.memWords s'.mem hist.newer
    rw [hnewer]
    trivial

/-- Every iteration keeps the invariant, whether it halts, replays or executes afresh (R181-R185). -/
theorem State.Inv.of_iterate {s t : State} (h : s.Inv) (hiter : iterate s = .next t) : t.Inv := by
  rcases iterate_cases hiter with ⟨r, rfl⟩ | ⟨w, i, -, -, ⟨u, hadvance, rfl⟩ | ⟨-, s', e, hfrom, hretire⟩⟩
  · exact h.of_sameWindow ⟨rfl, rfl, rfl⟩ rfl (fun _ => rfl) h.bpRising
  · exact (h.advance hadvance).countOne i.opcode
  · exact h.retire hfrom hretire

/-- The invariant takes no note of the schedule. -/
theorem State.Inv.with_arrivals {s : State} (h : s.Inv) (l : List (Option Command)) :
    ({ s with arrivals := l } : State).Inv := h.of_sameWindow ⟨rfl, rfl, rfl⟩ rfl h.haltStops h.bpRising

/-- Settles O52: by what a step can do; only an iteration and REWIND move the window, and RUN while halted resets it. -/
theorem invariantKeptByEveryStep : Obligations.InvariantKeptByEveryStep := by
  intro s t h hstep
  rcases step_cases hstep with ⟨-, -, u, hiter, rfl⟩ | ⟨-, ⟨-, rfl⟩ | ⟨c, rest, -, hcommand⟩⟩
  · have hu := h.of_iterate hiter
    obtain ⟨running, arrivals, hboundary, hstop⟩ := boundary_spec u
    rw [hboundary]
    refine hu.of_sameWindow ⟨rfl, rfl, rfl⟩ rfl (fun hhalt => ?_) hu.bpRising
    rcases hstop with hoff | ⟨-, hnone⟩
    · exact hoff
    · rw [hnone] at hhalt
      cases hhalt
  · exact h
  · have h' := h.with_arrivals rest
    rcases hcommand with ⟨-, rfl⟩ | ⟨-, hnone, rfl⟩ | ⟨-, -, rfl⟩ | ⟨-, -, hiter⟩ | ⟨-, rfl⟩ | ⟨a, -, rfl⟩ | ⟨a, -, rfl⟩
    · exact h'
    · exact h.of_sameWindow ⟨rfl, rfl, rfl⟩ rfl (fun hhalt => by rw [hnone] at hhalt; cases hhalt) h.bpRising
    · exact .of_genesis h.setup rfl rfl rfl rfl h.bpRising
    · exact h'.of_iterate hiter
    · have hrewound := State.rewindTimes_induct (fun _ hu => State.Inv.rewind hu)
        (if s.halt = none then 1 else s.setup.haltedRewindSteps) _ h'
      exact hrewound.of_sameWindow ⟨rfl, rfl, rfl⟩ rfl nofun hrewound.bpRising
    · exact h.of_sameWindow ⟨rfl, rfl, rfl⟩ rfl h.haltStops (insertBp_rising h.bpRising a)
    · exact h.of_sameWindow ⟨rfl, rfl, rfl⟩ rfl h.haltStops (removeBp_rising h.bpRising a)

/-! Runs. -/

/-- A run of one more step is a step and a run from there. -/
theorem run_succ_eq_next {M : Host.Core} {k : Nat} {s t : M.State} (h : M.run (k + 1) s = .next t) :
    ∃ u, M.step s = .next u ∧ M.run k u = .next t := by
  rw [Host.Core.run] at h
  split at h
  · rename_i u hstep
    exact ⟨u, hstep, h⟩
  · cases h
  · cases h

/-- What every step keeps, every run keeps. -/
theorem run_induct {P : State → Prop} (hstep : ∀ s t, P s → step s = .next t → P t) (k : Nat) {s t : State} (hs : P s)
    (hrun : Sys2Proof.core.run k s = .next t) : P t := by
  induction k generalizing s with
  | zero =>
    cases hrun
    exact hs
  | succ k ih =>
    obtain ⟨u, hfirst, hrest⟩ := run_succ_eq_next hrun
    exact ih (hstep s u hs hfirst) hrest

/-- Settles O49: the bound is part of the invariant and C never changes; the cursor is below the size, so C - 1 rewinds
bring it to 0. -/
theorem historyIsBounded : Obligations.HistoryIsBounded := by
  refine ⟨fun k s t hinv hrun => ?_, fun k s hinv hk => ?_⟩
  · obtain ⟨ht, hsetup⟩ : t.Inv ∧ t.setup = s.setup :=
      run_induct (P := fun u => u.Inv ∧ u.setup = s.setup)
        (fun u v hu hstep => ⟨invariantKeptByEveryStep u v hu.1 hstep, (configurationNeverChanges u v hstep).trans hu.2⟩)
        k ⟨hinv, rfl⟩ hrun
    exact hsetup ▸ ht.bound
  · have hsize : s.hist.cursor < s.hist.size := by rw [History.cursor, History.size]; omega
    have hbound := hinv.bound
    have hhead : (s.rewindTimes k).hist.cursor = 0 := by rw [State.rewindTimes_cursor]; omega
    exact ⟨hhead, (rewindUndoesTheStore _).1 hhead⟩

/-! Round trips. -/

theorem State.Inv.advance_rewind {s : State} (h : s.Inv) (hcursor : s.hist.cursor ≠ 0) : s.rewind.advance = some s := by
  obtain ⟨p, rest, holder⟩ := List.exists_cons_of_ne_nil (mt History.older_eq_nil_iff.1 hcursor)
  have hredo := ((holder ▸ h.back).leads h.memWf).redo
  rw [State.rewind_of_older holder, State.advance_of_newer rfl, hredo, ← holder]

theorem State.Inv.rewind_advance {s t : State} (h : s.Inv) (hadvance : s.advance = some t) : t.rewind = s := by
  obtain ⟨e, rest, hnewer, rfl⟩ := State.advance_spec hadvance
  have hundo := ((hnewer ▸ h.forward).leads h.memWf).undo
  rw [State.rewind_of_older rfl, hundo, ← hnewer]

/-- An instruction that completes has retired a snapshot: a halt counts nothing. -/
theorem Completes.retires {i : Instr} {s t : State} (h : Completes i.opcode s t) (hexec : exec i s = .next t) :
    ∃ s' e, RetiresFrom i s s' e ∧ s'.retire i.opcode e = .next t := by
  rcases exec_cases hexec with ⟨r, -, rfl⟩ | hretires
  · exact absurd h.total (Nat.succ_ne_self _).symm
  · exact hretires

/-- Rewinding just after a completed execution leads back to the snapshot and the memory it started from (R169). -/
theorem rewind_of_retire {i : Instr} {s s' t : State} {e : Snapshot} (hwf : s.mem.wf = true)
    (hcap : 2 ≤ s.setup.capacity) (hfrom : RetiresFrom i s s' e) (hretire : s'.retire i.opcode e = .next t) :
    t.rewind.now = s.now ∧ t.rewind.mem = s.mem ∧ t.rewind.stats = t.stats ∧ t.rewind.input = t.input := by
  obtain ⟨hist, happ, rfl⟩ := State.retire_spec hretire
  rw [hfrom.hist, hfrom.setup] at happ
  obtain ⟨-, hnow, -, -⟩ := History.append_spec happ
  obtain ⟨rest, holder⟩ := History.older_of_append hcap happ
  rw [State.rewind_of_older (s := ({ s' with hist := hist } : State).countOne i.opcode) holder]
  refine ⟨rfl, ?_, rfl, rfl⟩
  exact (congrArg (fun e => undoPatch e.patch s'.mem) hnow).trans (hfrom.patchLeads hwf).undo

/-- Settles O48: each patch leads from the memory before its entry to the memory after it. -/
theorem executeThenRewindRestores : Obligations.ExecuteThenRewindRestores := by
  refine ⟨fun i s t hwf hcap hexec hcompletes => ?_, fun s hinv hcursor => hinv.advance_rewind hcursor,
    fun s t hinv hadvance => hinv.rewind_advance hadvance⟩
  obtain ⟨s', e, hfrom, hretire⟩ := hcompletes.retires hexec
  exact rewind_of_retire hwf hcap hfrom hretire

end Sys2Proof.Machine
end

section
/-! SUPPORT. How the window moves (46_history_buffer.md, section 3; R161 H4): a step keeps it, resets it, rewinds it, or does
to it what one iteration does; from this the base memory (R167), the links between the entries, and what a replay gives
(R171). -/

namespace Sys2Proof.Machine

/-- What a step does to configuration, history and memory. -/
theorem step_window {s t : State} (h : step s = .next t) :
    SameWindow s t ∨ (s.halt ≠ none ∧ SameWindow s.fullReset t) ∨
      (∃ l k, SameWindow (({ s with arrivals := l } : State).rewindTimes k) t) ∨
      ∃ l u, iterate { s with arrivals := l } = .next u ∧ SameWindow u t := by
  rcases step_cases h with ⟨-, -, u, hiter, rfl⟩ | ⟨-, ⟨-, rfl⟩ | ⟨c, rest, -, hcommand⟩⟩
  · obtain ⟨running, arrivals, hboundary, -⟩ := boundary_spec u
    rw [hboundary]
    exact .inr (.inr (.inr ⟨s.arrivals, u, hiter, rfl, rfl, rfl⟩))
  · exact .inl ⟨rfl, rfl, rfl⟩
  · rcases hcommand with ⟨-, rfl⟩ | ⟨-, -, rfl⟩ | ⟨-, hhalt, rfl⟩ | ⟨-, -, hiter⟩ | ⟨-, rfl⟩ | ⟨a, -, rfl⟩ | ⟨a, -, rfl⟩
    · exact .inl ⟨rfl, rfl, rfl⟩
    · exact .inl ⟨rfl, rfl, rfl⟩
    · exact .inr (.inl ⟨hhalt, rfl, rfl, rfl⟩)
    · exact .inr (.inr (.inr ⟨rest, t, hiter, rfl, rfl, rfl⟩))
    · exact .inr (.inr (.inl ⟨rest, _, rfl, rfl, rfl⟩))
    · exact .inl ⟨rfl, rfl, rfl⟩
    · exact .inl ⟨rfl, rfl, rfl⟩

/-! The base memory. -/

theorem SameWindow.base {s t : State} (h : SameWindow s t) : t.base = s.base := by
  rw [State.base, h.hist, h.mem, State.base]

theorem State.rewind_base (s : State) : s.rewind.base = s.base := by
  rcases s.rewind_spec with ⟨-, hrewind⟩ | ⟨p, rest, holder, hrewind⟩
  · rw [hrewind]
  · rw [hrewind, State.base, State.base, holder, undoAll]

theorem State.rewindTimes_base (k : Nat) (s : State) : (s.rewindTimes k).base = s.base :=
  State.rewindTimes_induct (P := fun u => u.base = s.base) (fun u hu => u.rewind_base.trans hu) k s rfl

theorem State.Inv.advance_base {s t : State} (h : s.Inv) (hadvance : s.advance = some t) : t.base = s.base := by
  obtain ⟨e, rest, hnewer, rfl⟩ := State.advance_spec hadvance
  exact undoAll_cons_of_leads ((hnewer ▸ h.forward).leads h.memWf) s.hist.now s.hist.older

/-- The four ways the retained entries and the base memory move (R167, R163, R166). -/
def BaseMoves (s t : State) : Prop :=
  (t.hist.entries = s.hist.entries ∧ t.base = s.base) ∨
    (∃ e, t.hist.entries = s.hist.entries ++ [e] ∧ t.base = s.base) ∨
    (∃ e g, s.hist.size = s.setup.capacity ∧ s.hist.entries[1]? = some g ∧
      t.hist.entries = s.hist.entries.drop 1 ++ [e] ∧ t.base = redoPatch g.patch s.base) ∨
    (s.halt ≠ none ∧ t.hist.entries = [Snapshot.genesis] ∧ t.base = s.setup.memInit)

/-- At the tail, with more than one entry, the second entry is the last but one going back. -/
theorem History.entries_second {h : History} {l : List Snapshot} {d : Snapshot} (hnewer : h.newer = [])
    (holder : h.older = l ++ [d]) : h.entries[1]? = some ((h.now :: l).getLast (List.cons_ne_nil h.now l)) := by
  have hentries : h.entries = d :: (h.now :: l).reverse := by simp [History.entries, hnewer, holder]
  rw [hentries, List.getElem?_cons_succ, ← List.head?_eq_getElem?, List.head?_reverse, List.getLast?_eq_some_getLast]

/-- An executed instruction adds its entry and keeps the base below capacity; at capacity the head goes, and the patch of
the entry after it goes into the base. -/
theorem State.Inv.base_of_retire {i : Instr} {s s' t : State} {e : Snapshot} (h : s.Inv) (hfrom : RetiresFrom i s s' e)
    (hretire : s'.retire i.opcode e = .next t) : BaseMoves s t := by
  obtain ⟨hist, happ, rfl⟩ := State.retire_spec hretire
  rw [hfrom.hist, hfrom.setup] at happ
  have hentries := History.entries_of_append happ
  obtain ⟨htail, hnow, -, holder⟩ := History.append_spec happ
  have hlead := hfrom.patchLeads h.memWf
  rw [← hnow] at hlead
  rcases holder with ⟨hroom, holder⟩ | ⟨hfull, holder⟩
  · rw [if_pos hroom] at hentries
    refine .inr (.inl ⟨e, hentries, ?_⟩)
    change undoAll s'.mem hist.now hist.older = s.base
    rw [holder]
    exact undoAll_cons_of_leads hlead s.hist.now s.hist.older
  · rw [if_neg (Nat.not_lt.2 hfull)] at hentries
    have hne := History.older_ne_nil h.two_le_capacity htail hfull
    obtain ⟨l, d, hsplit⟩ := (List.eq_nil_or_concat' s.hist.older).resolve_left hne
    have hbase := (hsplit ▸ h.back).leads_base h.memWf
    refine .inr (.inr (.inl ⟨e, _, Nat.le_antisymm h.bound hfull, History.entries_second htail hsplit, hentries, ?_⟩))
    change undoAll s'.mem hist.now hist.older = _
    rw [State.base, hsplit, hbase.redo, holder, hsplit, ← List.cons_append, List.dropLast_concat]
    exact undoAll_cons_of_leads hlead s.hist.now l

theorem State.Inv.base_of_iterate {s t : State} (h : s.Inv) (hiter : iterate s = .next t) : BaseMoves s t := by
  rcases iterate_cases hiter with ⟨r, rfl⟩ | ⟨w, i, -, -, ⟨u, hadvance, rfl⟩ | ⟨-, s', e, hfrom, hretire⟩⟩
  · exact .inl ⟨rfl, rfl⟩
  · have hentries := State.advance_entries hadvance
    have hbase := h.advance_base hadvance
    exact .inl ⟨hentries, hbase⟩
  · exact h.base_of_retire hfrom hretire

/-- Settles O54: only an executed instruction and the full reset move the base. -/
theorem baseMemoryMovesWithTheHead : Obligations.BaseMemoryMovesWithTheHead := by
  refine ⟨fun c input => rfl, fun s t h hstep => ?_⟩
  rcases step_window hstep with hsame | ⟨hhalt, hsame⟩ | ⟨l, k, hsame⟩ | ⟨l, u, hiter, hsame⟩
  · exact .inl ⟨by rw [hsame.hist], hsame.base⟩
  · exact .inr (.inr (.inr ⟨hhalt, by rw [hsame.hist]; rfl, hsame.base⟩))
  · exact .inl ⟨by rw [hsame.hist]; exact State.rewindTimes_entries k _, hsame.base.trans (State.rewindTimes_base k _)⟩
  · rw [hsame.hist, hsame.base]
    exact (h.with_arrivals l).base_of_iterate hiter

/-! The links between the entries. -/

theorem SameWindow.linked {s t : State} (h : SameWindow s t) (hs : s.Linked) : t.Linked := by
  rw [State.Linked, h.setup, h.hist, h.mem]
  exact hs

theorem State.Linked.of_genesis {s : State} (h : s.hist = ⟨[], Snapshot.genesis, []⟩) : s.Linked := by
  rw [State.Linked, h]
  exact ⟨trivial, trivial⟩

/-- Dropping entries at the head leaves the others linked. -/
theorem LinkedBack.of_append {c : Setup} {gone l : List Snapshot} {m : Memory} {e : Snapshot}
    (h : LinkedBack c m e (l ++ gone)) : LinkedBack c m e l := by
  induction l generalizing m e with
  | nil => trivial
  | cons p rest ih => exact ⟨h.1, ih h.2⟩

theorem LinkedBack.cons {words : Nat} {c : Setup} {m m' : Memory} {e p : Snapshot} {rest : List Snapshot}
    (hlead : PatchLeads words e.patch m m') (hfollows : Follows c m p e m') (h : LinkedBack c m p rest) :
    LinkedBack c m' e (p :: rest) := by
  rw [LinkedBack, hlead.undo]
  exact ⟨hfollows, h⟩

theorem LinkedForward.cons {words : Nat} {c : Setup} {m m' : Memory} {e p : Snapshot} {rest : List Snapshot}
    (hlead : PatchLeads words e.patch m m') (hfollows : Follows c m p e m') (h : LinkedForward c m' e rest) :
    LinkedForward c m p (e :: rest) := by
  rw [LinkedForward, hlead.redo]
  exact ⟨hfollows, h⟩

theorem State.Linked.rewind {s : State} (hinv : s.Inv) (h : s.Linked) : s.rewind.Linked := by
  rcases s.rewind_spec with ⟨-, hrewind⟩ | ⟨p, rest, holder, hrewind⟩
  · rw [hrewind]
    exact h
  · obtain ⟨hback, hforward⟩ := h
    rw [holder] at hback
    rw [hrewind]
    exact ⟨hback.2, .cons ((holder ▸ hinv.back).leads hinv.memWf) hback.1 hforward⟩

theorem State.Linked.advance {s t : State} (hinv : s.Inv) (h : s.Linked) (hadvance : s.advance = some t) : t.Linked := by
  obtain ⟨e, rest, hnewer, rfl⟩ := State.advance_spec hadvance
  obtain ⟨hback, hforward⟩ := h
  rw [hnewer] at hforward
  exact ⟨.cons ((hnewer ▸ hinv.forward).leads hinv.memWf) hforward.1 hback, hforward.2⟩

theorem State.retire_of_append {s : State} {op : Opcode} {e : Snapshot} {h : History}
    (happ : s.hist.append s.setup.capacity e = some h) : s.retire op e = .next ({ s with hist := h }.countOne op) := by
  rw [State.retire, happ]

/-- A window of one entry has room for a second one (R162, D29). -/
theorem History.append_single {cap : Nat} (hcap : 2 ≤ cap) (a e : Snapshot) :
    (⟨[], a, []⟩ : History).append cap e = some ⟨[a], e, []⟩ := by
  simp [History.append, Nat.not_lt.2 hcap]

/-- A fresh execution halts, or the entry it leaves follows from the one it started in (R161 H4). -/
theorem exec_follows {s t : State} {w : Word} {i : Instr} (hcap : 2 ≤ s.setup.capacity) (hfetch : s.fetch = some w)
    (hdecode : decode s.setup.opcodes w = .instr i) (hexec : exec i s = .next t) :
    (∃ r, t = s.takeHalt r) ∨ Follows s.setup s.mem s.hist.now t.hist.now t.mem := by
  rcases exec_reads i (s := s) (u := freshAt s.setup s.mem s.hist.now s.input) rfl rfl rfl rfl with
    ⟨r, hhalt, -⟩ | ⟨m, inp, e, hretire, hfresh⟩
  · exact .inl ⟨r, Host.Outcome.next.inj (hexec.symm.trans hhalt)⟩
  · obtain ⟨hnow, hmem, -⟩ := State.retire_keeps (hretire.symm.trans hexec)
    rw [hnow, hmem]
    exact .inr ⟨w, i, s.input, _, hfetch, hdecode,
      hfresh.trans (State.retire_of_append (History.append_single hcap s.hist.now e)), rfl, rfl⟩

theorem State.Linked.of_iterate {s t : State} (hinv : s.Inv) (h : s.Linked) (hiter : iterate s = .next t) : t.Linked := by
  rcases iterate_cases hiter with
    ⟨r, rfl⟩ | ⟨w, i, hfetch, hdecode, ⟨u, hadvance, rfl⟩ | ⟨htail, s', e, hfrom, hretire⟩⟩
  · exact h
  · have hu : u.Linked := h.advance hinv hadvance
    exact hu
  · have hexec : exec i s = .next t := iterate_fresh hfetch hdecode htail ▸ hiter
    rcases exec_follows hinv.two_le_capacity hfetch hdecode hexec with ⟨r, rfl⟩ | hfollows
    · exact h
    · have hlead := hfrom.patchLeads hinv.memWf
      obtain ⟨hist, happ, rfl⟩ := State.retire_spec hretire
      rw [hfrom.hist, hfrom.setup] at happ
      obtain ⟨-, hnow, hnewer, -⟩ := History.append_spec happ
      obtain ⟨gone, holder⟩ := History.exists_older_append_eq happ
      rw [← hnow] at hlead
      change LinkedBack s'.setup s'.mem hist.now hist.older ∧ LinkedForward s'.setup s'.mem hist.now hist.newer
      rw [hfrom.setup, hnewer]
      exact ⟨.of_append (gone := gone) (holder ▸ .cons hlead hfollows h.1), trivial⟩

/-- Settles O55: the moves of the cursor carry the link they pass over from one side to the other, and an executed
instruction adds the link to its own entry. -/
theorem entriesFollowFromTheirPredecessors : Obligations.EntriesFollowFromTheirPredecessors := by
  refine ⟨fun c input => .of_genesis rfl, fun s t hinv h hstep => ?_⟩
  rcases step_window hstep with hsame | ⟨-, hsame⟩ | ⟨l, k, hsame⟩ | ⟨l, u, hiter, hsame⟩
  · exact hsame.linked h
  · exact hsame.linked (.of_genesis rfl)
  · have hrewound := State.rewindTimes_induct (P := fun u => u.Inv ∧ u.Linked)
      (fun _ hu => ⟨hu.1.rewind, hu.2.rewind hu.1⟩) k _ ⟨hinv.with_arrivals l, h⟩
    exact hsame.linked hrewound.2
  · exact hsame.linked (State.Linked.of_iterate (hinv.with_arrivals l) h hiter)

/-! Replay. -/

/-- Where an entry follows from another by some instruction but IN, executing that instruction at the tail from any state
on the first entry and its memory gives the second entry and its memory, and counts once; the stream plays no part. -/
theorem exec_of_follows {s v : State} {i : Instr} {input : Option (List Byte)} {e : Snapshot}
    (hi : i.opcode ≠ .charIn) (htail : s.hist.newer = [])
    (hfresh : exec i (freshAt s.setup s.mem s.hist.now input) = .next v) (hhist : v.hist = ⟨[s.hist.now], e, []⟩) :
    ∃ u, exec i s = .next u ∧ u.now = e ∧ u.mem = v.mem ∧ u.stats = s.stats.bump i.opcode ∧ u.input = s.input := by
  have hown : exec i (freshAt s.setup s.mem s.hist.now s.input) = .next { v with input := s.input } :=
    exec_with_input hi hfresh s.input
  rcases exec_reads i (s := s) (u := freshAt s.setup s.mem s.hist.now s.input) rfl rfl rfl rfl with
    ⟨r, -, hhalt⟩ | ⟨m, inp, e', hretire, hretire'⟩
  · have hv := Host.Outcome.next.inj (hown.symm.trans hhalt)
    have holder := congrArg (fun x : State => x.hist.older) hv
    simp [hhist, freshAt] at holder
  · obtain ⟨hnow', hmem', -⟩ := State.retire_keeps (hretire'.symm.trans hown)
    obtain ⟨hist, happ, hnext⟩ := State.retire_at_tail (s := { s with mem := m, input := inp }) htail i.opcode e'
    have hexec := hretire.trans hnext
    obtain ⟨hnow, -⟩ := State.retire_keeps hnext
    refine ⟨_, hexec, ?_, hmem'.symm, rfl, exec_keeps_input hi hexec⟩
    rw [State.now_eq, hnow, ← hnow', hhist]

/-- Settles O56: the stored entry follows from the current one by the instruction that is fetched now. -/
theorem replayEqualsReexecution : Obligations.ReplayEqualsReexecution := by
  intro s w i _ hlinked hbefore hcode hdecode hi
  obtain ⟨e, rest, hnewer⟩ := List.exists_cons_of_ne_nil hbefore
  obtain ⟨-, hforward⟩ := hlinked
  rw [hnewer] at hforward
  obtain ⟨w', i', input, v, hcode', hdecode', hfresh, hhist, hmem⟩ := hforward.1
  rw [wordIndex_eq] at hcode'
  obtain rfl : w = w' := Option.some.inj (hcode.symm.trans hcode')
  obtain rfl : i = i' := Decoded.instr.inj (hdecode.symm.trans hdecode')
  have hiter := iterate_replay (s.fetch_eq.trans hcode) hdecode (State.advance_of_newer hnewer)
  obtain ⟨u, hexec, hnow, hmem', hstats, hinput⟩ :=
    exec_of_follows (s := { s with hist := { s.hist with newer := [] } }) hi rfl hfresh hhist
  exact ⟨_, u, hiter, hexec, hnow.symm, (hmem'.trans hmem).symm, hstats.symm, hinput.symm⟩

end Sys2Proof.Machine
end

section
/-! SUPPORT. Encoding and decoding against each other (40_codec_decoders.md R94-R98, and R97 f; 30_encoding.md R71-R79):
a field of a word assembled from fields, the operand records read back, and the instruction read back. -/

namespace Sys2Proof

open Laws

/-! One field of a word assembled from fields. -/

theorem Field.get_or (f : Field) (v w : Word) : f.get (v ||| w) = f.get v ||| f.get w := by
  apply BitVec.eq_of_getLsbD_eq
  intro i _
  simp only [Field.get_getLsbD, BitVec.getLsbD_or, Bool.and_or_distrib_left]

/-- A value that fits a field is read back from the field's place. -/
theorem Field.get_put_setWidth (f : Field) {n : Nat} (hfits : n ≤ f.stop - f.start) (v : BitVec n) :
    f.get (f.put (v.setWidth 32)) = v.setWidth 32 := by
  have hdomain := f.inDomain
  apply BitVec.eq_of_getLsbD_eq
  intro i hi
  rw [Field.get_getLsbD, Field.put_getLsbD, Nat.add_sub_cancel_left, BitVec.getLsbD_setWidth, decide_eq_true hi,
    Bool.true_and]
  by_cases hwidth : i < f.stop - f.start
  · simp [hwidth, show 32 - f.stop + i < 32 by omega]
  · simp [hwidth, BitVec.getLsbD_of_ge v i (by omega)]

/-- A value that fits its field puts nothing into the field of another place. -/
theorem Field.get_put_of_disjoint {f g : Field} (hdisjoint : f.stop ≤ g.start ∨ g.stop ≤ f.start) {n : Nat}
    (hfits : n ≤ g.stop - g.start) (v : BitVec n) : f.get (g.put (v.setWidth 32)) = 0#32 := by
  have hf := f.inDomain
  have hg := g.inDomain
  apply BitVec.eq_of_getLsbD_eq
  intro i _
  rw [Field.get_getLsbD, Field.put_getLsbD, BitVec.getLsbD_setWidth, BitVec.getLsbD_zero]
  by_cases hwidth : i < f.stop - f.start
  · rcases hdisjoint with habove | hbelow
    · simp [BitVec.getLsbD_of_ge v (32 - f.stop + i - (32 - g.stop)) (by omega)]
    · simp [show 32 - f.stop + i < 32 - g.stop by omega]
  · simp [hwidth]

/-! The operand records, read back from their words (R97 f). -/

theorem decodeR_encodeR (op : BitVec 6) (o : OperandR) : decodeR (encodeR op o) = o := by
  simp (disch := decide) only [decodeR, encodeR, Field.get_or, Field.get_put_setWidth, Field.get_put_of_disjoint,
    BitVec.or_zero, BitVec.zero_or, BitVec.setWidth_setWidth_of_le, BitVec.setWidth_eq]

theorem decodeI_encodeI (op : BitVec 6) (o : OperandI) : decodeI (encodeI op o) = o := by
  simp (disch := decide) only [decodeI, encodeI, Field.get_or, Field.get_put_setWidth, Field.get_put_of_disjoint,
    BitVec.or_zero, BitVec.zero_or, BitVec.setWidth_setWidth_of_le, BitVec.setWidth_eq]

theorem decodeJ_encodeJ (op : BitVec 6) (o : OperandJ) : decodeJ (encodeJ op o) = o := by
  simp (disch := decide) only [decodeJ, encodeJ, Field.get_or, Field.get_put_setWidth, Field.get_put_of_disjoint,
    BitVec.zero_or, BitVec.setWidth_setWidth_of_le, BitVec.setWidth_eq]

/-! The instruction, read back from its word (R79, R99). -/

/-- A legal map gives each opcode a value of its own, so lookup finds it again (R79). -/
theorem OpcodeMap.lookup_code {m : OpcodeMap} (hinj : m.injective = true) (op : Opcode) :
    m.lookup (m.code op) = some op := by
  have hnodup : (Opcode.all.map m.code).Nodup := of_decide_eq_true hinj
  cases hfound : m.lookup (m.code op) with
  | none => exact absurd rfl (OpcodeMap.lookup_eq_none.1 hfound op)
  | some op' =>
    rw [List.inj_on_of_nodup_map hnodup (Opcode.mem_all op') (Opcode.mem_all op) (OpcodeMap.lookup_sound hfound)]

theorem opcodeBits_encode (m : OpcodeMap) (i : Instr) : opcodeBits (encode m i) = m.code i.opcode := by
  cases i with
  | j addr => exact EncodedOpcode.j addr m
  | beq rs rt imm => exact EncodedOpcode.beq rs rt imm m
  | addi rs rt imm => exact EncodedOpcode.addi rs rt imm m
  | lui rt imm => exact EncodedOpcode.lui rt imm m
  | mult rs rt => exact EncodedOpcode.mult rs rt m
  | lw rs rt imm => exact EncodedOpcode.lw rs rt imm m
  | swo rs rt rd => exact EncodedOpcode.swo rs rt rd m
  | fsub rs rt rd => exact EncodedOpcode.fsub rs rt rd m
  | fabs rs rd => exact EncodedOpcode.fabs rs rd m
  | ftoi rs rd => exact EncodedOpcode.ftoi rs rd m
  | assert rs imm => exact EncodedOpcode.assert rs imm m
  | charIn rd => exact EncodedOpcode.charIn rd m

/-- Each instruction is assembled from the operands its own format's encoder put into the word (R77). -/
theorem assemble_encode (m : OpcodeMap) (i : Instr) : assemble i.opcode (encode m i) = i := by
  cases i <;> simp only [Instr.opcode, assemble, encode, decodeR_encodeR, decodeI_encodeI, decodeJ_encodeJ]

/-- Settles O5: the opcode is found again under an injective map, and the operands are read back. -/
theorem decodeInvertsEncode : Obligations.DecodeInvertsEncode := by
  intro m hinj i
  refine decode_eq_instr.2 ⟨i.opcode, ?_, assemble_encode m i⟩
  rw [opcodeBits_encode, OpcodeMap.lookup_code hinj]

/-! The word, rebuilt from its fields. -/

/-- Fields that cover every place of the word make up the whole word. -/
theorem keepFields_of_covers {fs : List Field} (hcovers : keepFields fs (BitVec.allOnes 32) = BitVec.allOnes 32)
    (w : Word) : keepFields fs w = w := by
  rw [keepFields_eq_and, hcovers, BitVec.and_allOnes]

theorem encodeR_decodeR (w : Word) : encodeR (opcodeBits w) (decodeR w) = w := by
  have hkeep : encodeR (opcodeBits w) (decodeR w) = keepFields [.opcode, .rs, .rt, .rd, .shamt, .funct] w := by
    simp (disch := decide) [encodeR, opcodeBits, decodeR, Field.setWidth_get, keepFields, BitVec.or_assoc]
  rw [hkeep, keepFields_of_covers (by decide)]

theorem encodeI_decodeI (w : Word) : encodeI (opcodeBits w) (decodeI w) = w := by
  have hkeep : encodeI (opcodeBits w) (decodeI w) = keepFields [.opcode, .rs, .rt, .immediate] w := by
    simp (disch := decide) [encodeI, opcodeBits, decodeI, Field.setWidth_get, keepFields, BitVec.or_assoc]
  rw [hkeep, keepFields_of_covers (by decide)]

theorem encodeJ_decodeJ (w : Word) : encodeJ (opcodeBits w) (decodeJ w) = w := by
  have hkeep : encodeJ (opcodeBits w) (decodeJ w) = keepFields [.opcode, .addr] w := by
    simp (disch := decide) [encodeJ, opcodeBits, decodeJ, Field.setWidth_get, keepFields]
  rw [hkeep, keepFields_of_covers (by decide)]

/-- Settles O4: each format in both directions. -/
theorem fieldsTileTheWord : Obligations.FieldsTileTheWord :=
  ⟨fun w => ⟨encodeR_decodeR w, encodeI_decodeI w, encodeJ_decodeJ w⟩, decodeR_encodeR, decodeI_encodeI, decodeJ_encodeJ⟩

/-! The places of the fields. -/

/-- A field's value at its own width is the slice of the word at its place, counted from the least significant bit. -/
theorem Field.setWidth_get_eq_extractLsb' (f : Field) {n : Nat} (hn : n = f.stop - f.start) (w : Word) :
    (f.get w).setWidth n = w.extractLsb' (32 - f.stop) n := by
  apply BitVec.eq_of_getLsbD_eq
  intro i hi
  rw [BitVec.getLsbD_setWidth, Field.get_getLsbD, BitVec.getLsbD_extractLsb', ← hn, decide_eq_true hi, Bool.true_and,
    Bool.true_and]

/-- Settles O3: every field of the decoders is the slice at its place. -/
theorem decodersReadTheirFields : Obligations.DecodersReadTheirFields := by
  intro w
  simp (disch := decide) only [decodeR, decodeI, decodeJ, opcodeBits, Field.setWidth_get_eq_extractLsb']
  exact ⟨rfl, rfl, rfl, rfl⟩

/-- Settles O8: the fourteen words are evaluated. -/
theorem specWordsDecode : Obligations.SpecWordsDecode := by
  unfold Obligations.SpecWordsDecode
  decide

end Sys2Proof
end

section
/-! SUPPORT. What an execution answers (47_control_loop.md R184; 60_exceptions.md, section 2): a completion or the one halt
of its instruction, and a refusal only off the tail (U2); the halts of ASSERT and IN. -/

namespace Sys2Proof.Machine

/-- Settles O22: ASSERT's choice, where the patterns differ. -/
theorem assertHaltsOnDifference : Obligations.AssertHaltsOnDifference :=
  fun s rs imm hne => (exec_assert rs imm s).trans (if_neg hne)

/-- Settles O23: an absent stream and an empty one have no byte to pop. -/
theorem inHaltsWithoutInput : Obligations.InHaltsWithoutInput :=
  fun _ rd hinput => exec_charIn_none rd (inputPop_eq_none.2 hinput)

/-- A retirement completes the instruction from the state it started in: the state it retires from differs from that one
in memory and stream alone. -/
theorem RetiresFrom.completes {i : Instr} {s s' t : State} {e : Snapshot} (hfrom : RetiresFrom i s s' e)
    (hretire : s'.retire i.opcode e = .next t) : Completes i.opcode s t := by
  obtain ⟨htail, hentries, hcounts, htotal, hsetup, hbp, harrivals, hrunning, hhalt⟩ :=
    State.retire_completes hretire
  rw [hfrom.hist, hfrom.setup] at hentries
  rw [hfrom.stats] at hcounts htotal
  exact ⟨htail, hentries, hcounts, htotal, hsetup.trans hfrom.setup, hbp.trans hfrom.bp,
    harrivals.trans hfrom.arrivals, hrunning.trans hfrom.running, hhalt.trans hfrom.halt⟩

/-- Settles O24: an execution halts with a reason its instruction can raise, or retires. -/
theorem everyExecutionCompletesOrHalts : Obligations.EveryExecutionCompletesOrHalts := by
  intro i s t hexec
  rcases exec_cases hexec with ⟨r, hraise, rfl⟩ | ⟨s', e, hfrom, hretire⟩
  · exact .inr ⟨r, rfl, hraise⟩
  · exact .inl (hfrom.completes hretire)

/-- Settles O27: a halt is a next state, and only a retirement can be refused, off the tail. -/
theorem execStopsOnlyOffTheTail : Obligations.ExecStopsOnlyOffTheTail := by
  intro i s
  rcases exec_reads i (s := s) (u := s) rfl rfl rfl rfl with ⟨r, hhalt, -⟩ | ⟨m, inp, e, hexec, -⟩
  · exact .inl ⟨_, hhalt⟩
  · rcases ({ s with mem := m, input := inp } : State).retire_cases i.opcode e with ⟨h, -, hretire⟩ | ⟨hoff, hretire⟩
    · exact .inl ⟨_, hexec.trans hretire⟩
    · exact .inr ⟨hoff, hexec.trans hretire⟩

end Sys2Proof.Machine
end

section
/-! SUPPORT. One iteration (47_control_loop.md, sections 1 and 2): it always answers a next state, it halts with nothing
else changed or counts the instruction it fetched, and it takes no note of the breakpoints. -/

namespace Sys2Proof.Machine

/-- An iteration replays before the tail and executes at it, so it never meets the refusal of `append` (R183, R227). -/
theorem exists_iterate_eq_next (s : State) : ∃ t, iterate s = .next t := by
  cases hfetch : s.fetch with
  | none => exact ⟨_, iterate_outside hfetch⟩
  | some w =>
    cases hdecode : decode s.setup.opcodes w with
    | unknownOpcode bits => exact ⟨_, iterate_unknown hfetch hdecode⟩
    | instr i =>
      cases hadvance : s.advance with
      | some u => exact ⟨_, iterate_replay hfetch hdecode hadvance⟩
      | none =>
        have htail := State.advance_eq_none.1 hadvance
        rw [iterate_fresh hfetch hdecode htail]
        exact (execStopsOnlyOffTheTail i s).resolve_right fun hoff => hoff.1 htail

/-- An iteration halts with nothing else changed, or it counts the instruction at the current `pc` and leaves the control
state as it was (R193, R201-R207). -/
theorem iterate_counts_or_halts {s t : State} (h : iterate s = .next t) :
    (∃ r, t = s.takeHalt r) ∨
      ∃ w i, s.fetch = some w ∧ decode s.setup.opcodes w = .instr i ∧
        (∀ o, t.stats.count o = s.stats.count o + if o = i.opcode then 1 else 0) ∧
        t.stats.total = s.stats.total + 1 ∧ t.running = s.running ∧ t.halt = s.halt := by
  rcases iterate_cases h with
    hhalt | ⟨w, i, hfetch, hdecode, ⟨u, hadvance, rfl⟩ | ⟨-, s', e, hfrom, hretire⟩⟩
  · exact .inl hhalt
  · obtain ⟨e, rest, -, rfl⟩ := State.advance_spec hadvance
    exact .inr ⟨w, i, hfetch, hdecode, Stats.count_bump s.stats i.opcode, Stats.total_bump s.stats i.opcode, rfl, rfl⟩
  · have hdone := hfrom.completes hretire
    exact .inr ⟨w, i, hfetch, hdecode, hdone.counts, hdone.total, hdone.running, hdone.halt⟩

/-- An iteration that was not halted and is not halted after it leaves `running` as it was. -/
theorem iterate_running {s t : State} (h : iterate s = .next t) (hhalt : t.halt = none) : t.running = s.running := by
  rcases iterate_counts_or_halts h with ⟨r, rfl⟩ | ⟨w, i, -, -, -, -, hrunning, -⟩
  · cases hhalt
  · exact hrunning

/-- An iteration of an engine that awaits a command leaves it awaiting one. -/
theorem iterate_not_running {s t : State} (h : iterate s = .next t) (hrunning : s.running = false) :
    t.running = false := by
  rcases iterate_counts_or_halts h with ⟨r, rfl⟩ | ⟨w, i, -, -, -, -, hsame, -⟩
  · rfl
  · exact hsame.trans hrunning

/-- An execution does the same with other breakpoints, and leaves them as they are (R184). -/
theorem exec_with_bp {i : Instr} {s t : State} (h : exec i s = .next t) (bp : List Word) :
    exec i { s with bp := bp } = .next { t with bp := bp } := by
  rcases exec_reads i (s := s) (u := { s with bp := bp }) rfl rfl rfl rfl with
    ⟨r, hs, hbp⟩ | ⟨m, inp, e, hs, hbp⟩
  · obtain rfl : s.takeHalt r = t := by injection hs.symm.trans h
    exact hbp
  · obtain ⟨hist, happ, rfl⟩ := State.retire_spec (hs.symm.trans h)
    rw [hbp, State.retire, happ]
    rfl

/-- An iteration does the same with other breakpoints, and leaves them as they are (R181, R188). -/
theorem iterate_with_bp {s t : State} (h : iterate s = .next t) (bp : List Word) :
    iterate { s with bp := bp } = .next { t with bp := bp } := by
  cases hfetch : s.fetch with
  | none =>
    obtain rfl : s.takeHalt _ = t := by injection (iterate_outside hfetch).symm.trans h
    exact iterate_outside (s := { s with bp := bp }) hfetch
  | some w =>
    cases hdecode : decode s.setup.opcodes w with
    | unknownOpcode bits =>
      obtain rfl : s.takeHalt _ = t := by injection (iterate_unknown hfetch hdecode).symm.trans h
      exact iterate_unknown (s := { s with bp := bp }) hfetch hdecode
    | instr i =>
      cases hnewer : s.hist.newer with
      | nil =>
        rw [iterate_fresh hfetch hdecode hnewer] at h
        exact (iterate_fresh (s := { s with bp := bp }) hfetch hdecode hnewer).trans (exec_with_bp h bp)
      | cons e rest =>
        obtain rfl : State.countOne _ _ = t := by
          injection (iterate_replay hfetch hdecode (State.advance_of_newer hnewer)).symm.trans h
        exact iterate_replay (s := { s with bp := bp }) hfetch hdecode
          (State.advance_of_newer (s := { s with bp := bp }) hnewer)

/-- Settles O35: the iteration is one `advance` and one count. -/
theorem replayTakesTheStoredEntry : Obligations.ReplayTakesTheStoredEntry := by
  intro s w i e rest hword hdecode hnewer
  have hadvance := State.advance_of_newer hnewer
  have hentries := State.advance_entries hadvance
  refine ⟨_, iterate_replay (s.fetch_eq.trans hword) hdecode hadvance, rfl, hentries, rfl, fun hnone => ?noStore,
    fun q hq => ?store, rfl, Stats.count_bump s.stats i.opcode, Stats.total_bump s.stats i.opcode, rfl, rfl, rfl, rfl⟩
  case noStore => exact congrArg (redoPatch · s.mem) hnone
  case store => exact congrArg (redoPatch · s.mem) hq

end Sys2Proof.Machine
end

section
/-! SUPPORT. The boundary of a free run and the steps of the control loop (47_control_loop.md, sections 2 to 4): what stops
a run, what each command does, and what the statistics count. -/

namespace Sys2Proof.Machine

/-! The boundary, by what stops the run (R186, R187). -/

theorem boundary_of_halted {s : State} (hhalt : s.halt ≠ none) : boundary s = { s with running := false } :=
  if_pos (Option.isSome_iff_ne_none.2 hhalt)

theorem boundary_of_breakpoint {s : State} (hhalt : s.halt = none) (hbp : s.now.pc ∈ s.bp) :
    boundary s = { s with running := false } := by
  rw [boundary, if_neg (by simp [hhalt]), if_pos (List.contains_iff_mem.2 hbp)]

/-- Settles O31: by the order in which the boundary looks at the halt, the breakpoints and the schedule. -/
theorem boundaryOfAFreeRun : Obligations.BoundaryOfAFreeRun := by
  intro s
  refine ⟨boundary_of_halted, boundary_of_breakpoint, fun hhalt hbp rest => ?_, fun hhalt hbp harrivals => ?_⟩
  all_goals
    have hgo : ¬ s.bp.contains s.now.pc = true := mt List.contains_iff_mem.1 hbp
    rw [boundary, if_neg (by simp [hhalt]), if_neg hgo]
  · refine ⟨fun harrivals => ?_, fun harrivals => ?_, fun c hc harrivals => ?_⟩
    · rw [harrivals]
    · rw [harrivals]
    · rw [harrivals]
      cases c with
      | pause => exact absurd rfl hc
      | _ => rfl
  · rw [harrivals]

/-- A run that has not halted stops at a boundary exactly for a breakpoint or a PAUSE (R186, R187). -/
theorem boundary_stops_iff {s : State} (hrunning : s.running = true) (hhalt : s.halt = none) :
    (boundary s).running = false ↔ s.now.pc ∈ s.bp ∨ s.arrivals.head? = some (some .pause) := by
  obtain ⟨-, hbreak, hschedule, hempty⟩ := boundaryOfAFreeRun s
  by_cases hbp : s.now.pc ∈ s.bp
  · exact iff_of_true (by rw [hbreak hhalt hbp]) (.inl hbp)
  · rw [or_iff_right hbp]
    cases harrivals : s.arrivals with
    | nil => simp [hempty hhalt hbp harrivals, hrunning]
    | cons c rest =>
      obtain ⟨hpause, hnone, hother⟩ := hschedule hhalt hbp rest
      cases c with
      | none => simp [hnone harrivals, hrunning]
      | some c =>
        by_cases hc : c = .pause
        · simp [hpause (hc ▸ harrivals), hc]
        · simp [hother c hc harrivals, hrunning, hc]

/-! The two steps that iterate. -/

/-- A step of a free run is an iteration and the boundary after it (R187). -/
theorem step_of_iterate {s u : State} (hrunning : s.running = true) (hhalt : s.halt = none)
    (hiter : iterate s = .next u) : step s = .next (boundary u) := by
  rw [step_running hrunning hhalt, freeRunStep, hiter]

/-- A STEP while not halted is an iteration (R188). -/
theorem step_of_step_arriving {s : State} {rest : List (Option Command)} (hrunning : s.running = false)
    (hhalt : s.halt = none) (harrivals : s.arrivals = some .step :: rest) :
    step s = iterate { s with arrivals := rest } := by
  rw [step_of_command_arriving hrunning harrivals]
  exact if_neg (by simp [hhalt])

/-- An iteration that halts, whatever the schedule, is all that the step does, in a free run and by STEP (R207). -/
theorem step_of_iterate_halts {s : State} {r : HaltReason} (hhalt : s.halt = none)
    (hiter : ∀ l, iterate { s with arrivals := l } = .next (({ s with arrivals := l } : State).takeHalt r)) :
    (s.running = true → step s = .next (s.takeHalt r)) ∧
      (s.running = false → ∀ rest, s.arrivals = some .step :: rest →
        step s = .next (({ s with arrivals := rest } : State).takeHalt r)) := by
  refine ⟨fun hrunning => ?_, fun hrunning rest harrivals => ?_⟩
  · rw [step_of_iterate hrunning hhalt (hiter s.arrivals)]
    exact congrArg _ (boundary_of_halted nofun)
  · rw [step_of_step_arriving hrunning hhalt harrivals, hiter rest]

/-- Settles O30: both kinds of step iterate, and at the tail an iteration executes. -/
theorem stepRunsTheDecodedInstruction : Obligations.StepRunsTheDecodedInstruction := by
  intro s w i hword hdecode hhalt htail
  have hfetch := s.fetch_eq.trans hword
  refine ⟨fun hrunning t hexec => ?_, fun hrunning rest harrivals => ?_⟩
  · exact step_of_iterate hrunning hhalt ((iterate_fresh hfetch hdecode htail).trans hexec)
  · rw [step_of_step_arriving hrunning hhalt harrivals]
    exact iterate_fresh (s := { s with arrivals := rest }) hfetch hdecode htail

/-- Settles O32: a boundary after an iteration that leaves the run going stops it for a breakpoint or a PAUSE, and touches
nothing but `running` and the schedule. -/
theorem breakpointPausesAfterTheStep : Obligations.BreakpointPausesAfterTheStep := by
  intro s t hrunning hhalt hstep ht
  obtain ⟨u, hiter⟩ := exists_iterate_eq_next s
  obtain rfl : boundary u = t := by injection (step_of_iterate hrunning hhalt hiter).symm.trans hstep
  obtain ⟨-, hbp, harrivals⟩ := iterate_keeps hiter
  obtain ⟨running, arrivals, hboundary, -⟩ := boundary_spec u
  have hu : u.halt = none := by rwa [hboundary] at ht
  have hstops := boundary_stops_iff ((iterate_running hiter hu).trans hrunning) hu
  rw [hbp, harrivals] at hstops
  rw [hboundary] at hstops ⊢
  exact ⟨hstops, u, hiter, rfl, rfl, rfl, rfl, hbp⟩

/-- Settles O33: outside the image the fetch finds no word, whatever the schedule. -/
theorem fetchOutsideTheImageHalts : Obligations.FetchOutsideTheImageHalts := by
  refine ⟨fun s => ⟨s.fetch_eq, ?_⟩, fun s hout hhalt => ?_⟩
  · have hpc := s.now.pc.isLt
    omega
  · have hfetch : s.fetch = none := s.fetch_eq.trans (List.getElem?_eq_none hout)
    exact step_of_iterate_halts hhalt fun l => iterate_outside (s := { s with arrivals := l }) hfetch

/-- Settles O34: an opcode value that no instruction has decodes to none, whatever the schedule. -/
theorem unknownOpcodeHalts : Obligations.UnknownOpcodeHalts := by
  intro s w hword hunknown hhalt
  obtain ⟨-, -, -, hopcode⟩ := decodersReadTheirFields w
  rw [← hopcode] at hunknown
  have hdecode := decode_eq_unknownOpcode.2 ⟨rfl, hunknown⟩
  exact step_of_iterate_halts hhalt fun l =>
    iterate_unknown (s := { s with arrivals := l }) (s.fetch_eq.trans hword) hdecode

/-- Settles O37: STEP is one iteration, which takes no note of the breakpoints. -/
theorem stepCommandIsOneIteration : Obligations.StepCommandIsOneIteration := by
  intro s rest hrunning hhalt harrivals
  obtain ⟨t, hiter⟩ := exists_iterate_eq_next { s with arrivals := rest }
  obtain ⟨-, -, hrest⟩ := iterate_keeps hiter
  refine ⟨t, (step_of_step_arriving hrunning hhalt harrivals).trans hiter, hiter,
    iterate_not_running hiter hrunning, hrest, fun bp => ?_⟩
  rw [step_of_step_arriving (s := { s with bp := bp }) hrunning hhalt harrivals]
  exact iterate_with_bp hiter bp

/-- Settles O44: an iteration answers a next state, and every command but STEP does so by its form. -/
theorem everyStepAnswersANextState : Obligations.EveryStepAnswersANextState := by
  intro s
  by_cases hawait : s.running = false ∨ s.halt ≠ none
  · rw [step_awaiting hawait, awaitStep]
    match s.arrivals with
    | [] => exact ⟨_, rfl⟩
    | none :: rest => exact ⟨_, rfl⟩
    | some c :: rest =>
      cases c with
      | step =>
        change ∃ t, stepCommand _ = _
        rw [stepCommand]
        split
        · exact ⟨_, rfl⟩
        · exact exists_iterate_eq_next _
      | _ => exact ⟨_, rfl⟩
  · simp only [not_or, Bool.not_eq_false, not_not] at hawait
    obtain ⟨hrunning, hhalt⟩ := hawait
    obtain ⟨u, hiter⟩ := exists_iterate_eq_next s
    exact ⟨_, step_of_iterate hrunning hhalt hiter⟩

/-! The commands RUN, REWIND, SET_BP and CLR_BP. -/

/-- Settles O36: the full reset is construction, but for the breakpoints, the stream and the schedule. -/
theorem runStartsOrResets : Obligations.RunStartsOrResets := by
  intro s rest hrunning harrivals
  rw [step_of_command_arriving hrunning harrivals]
  refine ⟨fun hhalt => ?_, fun hhalt => ?_⟩
  · exact congrArg _ (if_neg (by simp [hhalt]))
  · exact congrArg _ (if_pos (Option.isSome_iff_ne_none.2 hhalt))

/-- Going back undoes the stores of the entries left behind, newest first, as far as the head (R190, R165). -/
theorem State.rewindTimes_mem (k : Nat) (s : State) :
    (s.rewindTimes k).mem =
      ((s.hist.now :: s.hist.older).take (min k s.hist.cursor)).foldl (fun m e => undoPatch e.patch m) s.mem := by
  induction k generalizing s with
  | zero => rw [Nat.zero_min]; rfl
  | succ k ih =>
    rw [State.rewindTimes, ih]
    rcases s.rewind_spec with ⟨hnil, hrewind⟩ | ⟨e, rest, holder, hrewind⟩
    · rw [hrewind, History.cursor, hnil, List.length_nil, Nat.min_zero, Nat.min_zero]
    · rw [hrewind, History.cursor, History.cursor, holder, List.length_cons, Nat.add_min_add_right]
      rfl

/-- Settles O38: the moves keep the entries, and every effect of REWIND is that of its moves but for the halt. -/
theorem rewindCommandMovesBack : Obligations.RewindCommandMovesBack := by
  intro s rest k hrunning harrivals hk
  have hmoves : (if s.halt.isSome then s.setup.haltedRewindSteps else 1) = k := by
    rw [hk]
    cases s.halt <;> rfl
  rw [step_of_command_arriving hrunning harrivals]
  obtain ⟨hsetup, hinput, -, -, hbp, hstats, hrest⟩ := State.rewindTimes_keeps k { s with arrivals := rest }
  refine ⟨(({ s with arrivals := rest } : State).rewindTimes k).clearHalt, ?_, State.rewindTimes_entries k _,
    State.rewindTimes_cursor k _, State.rewindTimes_mem k _, rfl, rfl, hstats, hinput, hbp, hsetup, hrest⟩
  rw [← hmoves]
  rfl

/-- Setting what is set changes nothing on a canonical list: it is found before any greater value (log 26). -/
theorem insertBp_of_mem {a : Word} {l : List Word} (hrising : risingBp l) (ha : a ∈ l) : insertBp a l = l := by
  induction l with
  | nil => cases ha
  | cons b rest ih =>
    obtain ⟨hbelow, hrest⟩ := List.pairwise_cons.1 hrising
    rw [insertBp]
    rcases List.mem_cons.1 ha with rfl | ha
    · rw [if_neg (Nat.lt_irrefl _), if_pos rfl]
    · have hlt := hbelow a ha
      rw [if_neg (by omega), if_neg (fun heq => by rw [heq] at hlt; omega), ih hrest ha]

/-- Clearing what is not set changes nothing. -/
theorem removeBp_of_not_mem {a : Word} {l : List Word} (ha : a ∉ l) : removeBp a l = l := by
  induction l with
  | nil => rfl
  | cons b rest ih =>
    obtain ⟨hne, hrest⟩ := List.ne_and_not_mem_of_not_mem_cons ha
    rw [removeBp, if_neg hne, ih hrest]

/-- Settles O39: the two list operations are the set operations and keep the list canonical. -/
theorem breakpointCommandsAreSetOperations : Obligations.BreakpointCommandsAreSetOperations := by
  intro s a rest hrunning
  refine ⟨fun harrivals => ?_, fun harrivals => ?_⟩
  · exact ⟨insertBp a s.bp, step_of_command_arriving hrunning harrivals, fun b => mem_insertBp a b s.bp,
      fun hrising => ⟨insertBp_rising hrising a, insertBp_of_mem hrising⟩⟩
  · exact ⟨removeBp a s.bp, step_of_command_arriving hrunning harrivals, fun b => mem_removeBp a b s.bp,
      fun hrising => removeBp_rising hrising a, removeBp_of_not_mem⟩

/-! A halted engine, and the statistics. -/

/-- Settles O41: by what a step that awaits a command can do; STEP does nothing while halted. -/
theorem haltedEngineExecutesNothing : Obligations.HaltedEngineExecutesNothing := by
  intro s t r hhalt hstep
  rcases step_cases hstep with ⟨-, hnone, -⟩ | ⟨-, ⟨-, rfl⟩ | ⟨c, rest, harrivals, hcommand⟩⟩
  · nomatch hhalt.symm.trans hnone
  · exact ⟨rfl, .inl rfl, .inl ⟨hhalt, rfl, rfl⟩⟩
  · rw [harrivals, List.head?_cons]
    rcases hcommand with
      ⟨-, rfl⟩ | ⟨-, hnone, -⟩ | ⟨rfl, -, rfl⟩ | ⟨-, hnone, -⟩ | ⟨rfl, rfl⟩ | ⟨a, -, rfl⟩ | ⟨a, -, rfl⟩
    · exact ⟨rfl, .inl rfl, .inl ⟨hhalt, rfl, rfl⟩⟩
    · nomatch hhalt.symm.trans hnone
    · exact ⟨rfl, .inr ⟨rfl, rfl⟩, .inr ⟨rfl, .inl rfl⟩⟩
    · nomatch hhalt.symm.trans hnone
    · obtain ⟨-, hinput, -, -, -, hstats, -⟩ := State.rewindTimes_keeps
        (if s.halt = none then 1 else s.setup.haltedRewindSteps) { s with arrivals := rest }
      exact ⟨hinput, .inl hstats, .inr ⟨rfl, .inr rfl⟩⟩
    · exact ⟨rfl, .inl rfl, .inl ⟨hhalt, rfl, rfl⟩⟩
    · exact ⟨rfl, .inl rfl, .inl ⟨hhalt, rfl, rfl⟩⟩

end Sys2Proof.Machine
end

section
/-! SUPPORT. What the statistics count (47_control_loop.md section 4): iterations that do not halt, until the full reset. -/

namespace Sys2Proof.Machine

/-- The next step iterates: it is one of a free run, or the STEP command while not halted (R181, R187, R188). -/
def State.Iterates (s : State) : Prop :=
  s.halt = none ∧ (s.running = true ∨ s.arrivals.head? = some (some .step))

/-- The next step is the full reset, the RUN command while halted (R189). -/
def State.Resets (s : State) : Prop := s.halt ≠ none ∧ s.arrivals.head? = some (some .run)

/-- While a command is awaited a step iterates by the STEP command alone. -/
theorem State.not_iterates {s : State} (hawait : s.running = false ∨ s.halt ≠ none)
    (hcommand : s.halt = none → s.arrivals.head? ≠ some (some .step)) : ¬ s.Iterates := by
  rintro ⟨hhalt, hrunning | hstep⟩
  · rcases hawait with hidle | hhalted
    · nomatch hrunning.symm.trans hidle
    · exact hhalted hhalt
  · exact hcommand hhalt hstep

/-- A step iterates, or is the full reset, or leaves the statistics as they are (R193). -/
theorem step_stats {s t : State} (h : step s = .next t) :
    (s.Iterates ∧ ∃ l u, iterate { s with arrivals := l } = .next u ∧ t.halt = u.halt ∧ t.stats = u.stats) ∨
      (s.Resets ∧ t.halt = none ∧ t.stats = Stats.zero) ∨
      (¬ s.Iterates ∧ ¬ s.Resets ∧ t.stats = s.stats) := by
  rcases step_cases h with ⟨hrunning, hhalt, u, hiter, rfl⟩ | ⟨hawait, ⟨harrivals, rfl⟩ | ⟨c, rest, harrivals, hcommand⟩⟩
  · obtain ⟨running, arrivals, hboundary, -⟩ := boundary_spec u
    rw [hboundary]
    exact .inl ⟨⟨hhalt, .inl hrunning⟩, s.arrivals, u, hiter, rfl, rfl⟩
  · exact .inr (.inr ⟨State.not_iterates hawait (by simp [harrivals]), by simp [State.Resets, harrivals], rfl⟩)
  · have hhead : s.arrivals.head? = some c := by rw [harrivals, List.head?_cons]
    rcases hcommand with ⟨hc, rfl⟩ | ⟨rfl, hhalt, rfl⟩ | ⟨rfl, hhalt, rfl⟩ | ⟨rfl, hhalt, hiter⟩ | ⟨rfl, rfl⟩ |
      ⟨a, rfl, rfl⟩ | ⟨a, rfl, rfl⟩
    · refine .inr (.inr ⟨State.not_iterates hawait fun hhalt => ?_, ?_, rfl⟩)
      · rcases hc with rfl | rfl | rfl | rfl | ⟨-, hhalted⟩ <;> simp_all
      · rcases hc with rfl | rfl | rfl | rfl | ⟨rfl, -⟩ <;> simp [State.Resets, hhead]
    · exact .inr (.inr ⟨State.not_iterates hawait (by simp [hhead]), fun hreset => hreset.1 hhalt, rfl⟩)
    · exact .inr (.inl ⟨⟨hhalt, hhead⟩, rfl, rfl⟩)
    · exact .inl ⟨⟨hhalt, .inr hhead⟩, rest, t, hiter, rfl, rfl⟩
    · obtain ⟨-, -, -, -, -, hstats, -⟩ := State.rewindTimes_keeps
        (if s.halt = none then 1 else s.setup.haltedRewindSteps) { s with arrivals := rest }
      exact .inr (.inr ⟨State.not_iterates hawait (by simp [hhead]), by simp [State.Resets, hhead], hstats⟩)
    · exact .inr (.inr ⟨State.not_iterates hawait (by simp [hhead]), by simp [State.Resets, hhead], rfl⟩)
    · exact .inr (.inr ⟨State.not_iterates hawait (by simp [hhead]), by simp [State.Resets, hhead], rfl⟩)

/-- Settles O42: an iteration counts or halts, and the other steps but the full reset keep the statistics. -/
theorem statisticsCountIterations : Obligations.StatisticsCountIterations := by
  intro s t hstep
  rcases step_stats hstep with
    ⟨⟨hhalt, hhow⟩, l, u, hiter, hthalt, htstats⟩ | ⟨⟨hhalt, hhead⟩, hthalt, htstats⟩ | ⟨hiterates, hresets, htstats⟩
  · refine ⟨fun hne => ?_, fun _ hnone _ => ?_, fun _ hidle hhead => ?_, fun hne => absurd hhalt hne,
      fun hne => absurd hhalt hne⟩
    · rcases iterate_counts_or_halts hiter with ⟨r, rfl⟩ | ⟨w, i, -, -, -, -, -, hsame⟩
      · exact htstats
      · exact absurd (hthalt.trans (hsame.trans hhalt)) hne
    · rcases iterate_counts_or_halts hiter with ⟨r, rfl⟩ | ⟨w, i, hfetch, hdecode, hcounts, htotal, -, -⟩
      · nomatch hthalt.symm.trans hnone
      · rw [htstats]
        exact ⟨w, i, hfetch, hdecode, hcounts, htotal⟩
    · rcases hhow with hrunning | hstepHead
      · nomatch hrunning.symm.trans hidle
      · exact absurd hstepHead hhead
  · refine ⟨fun hne => absurd hthalt hne, fun hnone => absurd hnone hhalt, fun hnone => absurd hnone hhalt,
      fun _ hne => absurd hhead hne, fun _ _ => ?_⟩
    rw [htstats]
    exact ⟨Stats.count_zero, rfl⟩
  · exact ⟨fun _ => htstats, fun hhalt _ hhow => absurd ⟨hhalt, hhow⟩ hiterates, fun _ _ _ => htstats,
      fun _ _ => htstats, fun hhalt hhead => absurd ⟨hhalt, hhead⟩ hresets⟩

end Sys2Proof.Machine
end

section
/-! SUPPORT. The binary32 format (44_float.md R146) as numbers: a pattern's fields, its kind and its value; and of the two
configuration functions all but the rounding: special operands (R140) and truncation (R141). -/

namespace Sys2Proof.Machine

/-! The fields of a pattern. -/

@[simp] theorem F32.sign_ofFields (s : BitVec 1) (e : BitVec 8) (fr : BitVec 23) : F32.sign (F32.ofFields s e fr) = s :=
  (BitVec.extractLsb'_append_eq_of_le (by decide)).trans BitVec.extractLsb'_append_eq_left

@[simp] theorem F32.exponent_ofFields (s : BitVec 1) (e : BitVec 8) (fr : BitVec 23) :
    F32.exponent (F32.ofFields s e fr) = e :=
  (BitVec.extractLsb'_append_eq_of_le (by decide)).trans BitVec.extractLsb'_append_eq_right

@[simp] theorem F32.fraction_ofFields (s : BitVec 1) (e : BitVec 8) (fr : BitVec 23) :
    F32.fraction (F32.ofFields s e fr) = fr := BitVec.extractLsb'_append_eq_right

theorem F32.ofFields_fields (a : Word) : F32.ofFields (F32.sign a) (F32.exponent a) (F32.fraction a) = a := by
  rw [F32.ofFields, F32.sign, F32.exponent, F32.fraction, BitVec.extractLsb'_append_extractLsb'_eq_extractLsb' (by decide)]
  exact (BitVec.extractLsb'_append_extractLsb'_eq_extractLsb' (by decide)).trans BitVec.extractLsb'_eq_self

theorem F32.exponent_toNat (a : Word) : (F32.exponent a).toNat = a.toNat % 2 ^ 31 / 2 ^ 23 := by
  rw [F32.exponent, BitVec.extractLsb'_toNat, Nat.shiftRight_eq_div_pow]
  omega

theorem F32.fraction_toNat (a : Word) : (F32.fraction a).toNat = a.toNat % 2 ^ 31 % 2 ^ 23 := by
  rw [F32.fraction, BitVec.extractLsb'_toNat, Nat.shiftRight_eq_div_pow]
  omega

/-- Flipping bit 31 flips the sign and keeps the other fields. -/
theorem F32.ofFields_xor_signBit (s : BitVec 1) (e : BitVec 8) (fr : BitVec 23) :
    F32.ofFields s e fr ^^^ 0x80000000#32 = F32.ofFields (~~~ s) e fr := by
  have hbit : (0x80000000#32 : Word) = F32.ofFields 1 0 0 := by decide
  have hsign : s ^^^ 1 = ~~~ s := by revert s; decide
  rw [hbit, F32.ofFields, F32.ofFields, F32.ofFields, BitVec.xor_append, BitVec.xor_append, hsign]
  simp

/-! The three kinds of pattern: NaN, infinity, finite. -/

theorem F32.isNaN_fsubNaN (a b : Word) : F32.isNaN (F32.fsubNaN a b) = true := by
  have hbound := (Config.fsubNanFraction a b).isLt
  have hne : BitVec.ofNat 23 ((Config.fsubNanFraction a b).val + 1) ≠ 0#23 := by
    rw [ne_eq, ← BitVec.toNat_inj, BitVec.toNat_ofNat, BitVec.toNat_ofNat]
    omega
  simpa [F32.isNaN, F32.fsubNaN] using hne

theorem F32.not_isNaN_of_isInf {a : Word} (h : F32.isInf a = true) : F32.isNaN a = false := by
  simp_all [F32.isInf, F32.isNaN]

theorem F32.not_isNaN_of_isFinite {a : Word} (h : F32.isFinite a = true) : F32.isNaN a = false := by
  simp_all [F32.isFinite, F32.isNaN]

theorem F32.not_isInf_of_isFinite {a : Word} (h : F32.isFinite a = true) : F32.isInf a = false := by
  simp_all [F32.isFinite, F32.isInf]

theorem F32.eq_infinity_of_isInf {a : Word} (h : F32.isInf a = true) : a = F32.infinity (F32.sign a) := by
  simp only [F32.isInf, Bool.and_eq_true, beq_iff_eq] at h
  obtain ⟨hexponent, hfraction⟩ := h
  rw [F32.infinity, ← hexponent, ← hfraction, F32.ofFields_fields]

/-- The other infinity is this one with bit 31 flipped. -/
theorem F32.infinity_not_sign {b : Word} (h : F32.isInf b = true) :
    F32.infinity (~~~ F32.sign b) = b ^^^ 0x80000000#32 := by
  conv_rhs => rw [F32.eq_infinity_of_isInf h, F32.infinity, F32.ofFields_xor_signBit]
  rfl

/-! The value of a finite pattern. -/

/-- A magnitude with a sign bit. -/
def F32.signed (s : BitVec 1) (n : Nat) : Int := if s = 0 then (n : Int) else -(n : Int)

theorem F32.signed_zero (n : Nat) : F32.signed 0 n = n := if_pos rfl

theorem F32.signed_one (n : Nat) : F32.signed 1 n = -n := if_neg (by decide)

theorem F32.value_eq_signed (a : Word) : F32.value a = F32.signed (F32.sign a) (F32.magnitude a) := rfl

theorem F32.magnitude_eq_zero {a : Word} (h : F32.magnitude a = 0) : F32.exponent a = 0 ∧ F32.fraction a = 0 := by
  rw [F32.magnitude] at h
  split_ifs at h with hexponent
  · exact ⟨hexponent, BitVec.eq_of_toNat_eq h⟩
  · simp at h

/-- The two zeros are the finite patterns of one value and of opposite signs. -/
theorem F32.zeros_of_value_eq {a b : Word} (h : F32.value a = F32.value b) (ha : F32.sign a = 1) (hb : F32.sign b = 0) :
    a = 0x80000000#32 ∧ b = 0x00000000#32 := by
  rw [F32.value_eq_signed, F32.value_eq_signed, ha, hb, F32.signed_one, F32.signed_zero] at h
  obtain ⟨haexponent, hafraction⟩ := F32.magnitude_eq_zero (a := a) (by omega)
  obtain ⟨hbexponent, hbfraction⟩ := F32.magnitude_eq_zero (a := b) (by omega)
  rw [← F32.ofFields_fields a, ← F32.ofFields_fields b, ha, hb, haexponent, hafraction, hbexponent, hbfraction]
  decide

/-! The intended subtraction, by the kinds of its operands (R140). -/

theorem fsub32Intended_of_isNaN {a b : Word} (h : F32.isNaN a = true ∨ F32.isNaN b = true) :
    fsub32Intended a b = F32.fsubNaN a b := if_pos (by simpa using h)

theorem fsub32Intended_of_isInf_left {a b : Word} (ha : F32.isInf a = true) (hb : F32.isNaN b = false) :
    fsub32Intended a b =
      if F32.isInf b = true ∧ F32.sign a = F32.sign b then F32.fsubNaN a b else a := by
  simp [fsub32Intended, F32.not_isNaN_of_isInf ha, hb, ha]

theorem fsub32Intended_of_isInf_right {a b : Word} (ha : F32.isFinite a = true) (hb : F32.isInf b = true) :
    fsub32Intended a b = F32.infinity (~~~ F32.sign b) := by
  simp [fsub32Intended, F32.not_isNaN_of_isFinite ha, F32.not_isNaN_of_isInf hb, F32.not_isInf_of_isFinite ha, hb]

theorem fsub32Intended_of_isFinite {a b : Word} (ha : F32.isFinite a = true) (hb : F32.isFinite b = true) :
    fsub32Intended a b =
      if F32.value a - F32.value b = 0 then
        (if F32.sign a = 1 ∧ F32.sign b = 0 then F32.ofFields 1 0 0 else F32.ofFields 0 0 0)
      else F32.round (if F32.value a - F32.value b < 0 then 1 else 0) (F32.value a - F32.value b).natAbs := by
  simp [fsub32Intended, F32.not_isNaN_of_isFinite ha, F32.not_isNaN_of_isFinite hb, F32.not_isInf_of_isFinite ha,
    F32.not_isInf_of_isFinite hb]

/-- Settles O59: by the kinds of the operands; of equal finite operands only -0.0 and +0.0 differ in the sign. -/
theorem fsubSpecialOperands : Obligations.FsubSpecialOperands := by
  intro cf a b hunlisted
  rw [fsub32_of_unlisted hunlisted]
  refine ⟨fun hnan => ?_, fun ha hb hsign => ?_, fun ha hb hother => ?_, fun ha hb => ?_, fun ha hb heq => ?_⟩
  · rw [fsub32Intended_of_isNaN hnan]
    exact F32.isNaN_fsubNaN a b
  · rw [fsub32Intended_of_isInf_left ha (F32.not_isNaN_of_isInf hb), if_pos ⟨hb, hsign⟩]
    exact F32.isNaN_fsubNaN a b
  · rw [fsub32Intended_of_isInf_left ha hb, if_neg hother]
  · rw [fsub32Intended_of_isInf_right ha hb, F32.infinity_not_sign hb]
  · have hzeros : (F32.sign a = 1 ∧ F32.sign b = 0) ↔ a = 0x80000000#32 ∧ b = 0x00000000#32 :=
      ⟨fun ⟨hsa, hsb⟩ => F32.zeros_of_value_eq heq hsa hsb, by rintro ⟨rfl, rfl⟩; decide⟩
    rw [fsub32Intended_of_isFinite ha hb, if_pos (Int.sub_eq_zero.2 heq)]
    exact if_congr hzeros rfl rfl

/-! Truncation (R141). -/

/-- Division toward zero gives the whole number next to the quotient on the side of zero. -/
theorem tdiv_brackets (v : Int) {d : Int} (hd : 0 < d) :
    (0 ≤ v → v.tdiv d * d ≤ v ∧ v < (v.tdiv d + 1) * d) ∧ (v ≤ 0 → v ≤ v.tdiv d * d ∧ (v.tdiv d - 1) * d < v) := by
  have hfloor : ∀ u : Int, 0 ≤ u → u.tdiv d * d ≤ u ∧ u < (u.tdiv d + 1) * d := fun u hu => by
    rw [Int.tdiv_eq_ediv_of_nonneg hu]
    exact ⟨Int.ediv_mul_le u hd.ne', Int.lt_ediv_add_one_mul_self u hd⟩
  refine ⟨hfloor v, fun hv => ?_⟩
  obtain ⟨hle, hlt⟩ := hfloor (-v) (by omega)
  rw [Int.neg_tdiv] at hle hlt
  constructor <;> linarith

/-- A value inside the bounds has a truncation with a 32-bit signed pattern (D15). -/
theorem F32.trunc_bounds {a : Word} (hlow : -(2 ^ 31 + 1) * 2 ^ 149 < F32.value a)
    (hhigh : F32.value a < 2 ^ 31 * 2 ^ 149) : -2 ^ 31 ≤ F32.trunc a ∧ F32.trunc a < 2 ^ 31 := by
  obtain ⟨hpos, hneg⟩ := tdiv_brackets (F32.value a) (d := 2 ^ 149) (by decide)
  rw [← F32.trunc] at hpos hneg
  rcases Int.le_total 0 (F32.value a) with h | h
  · have := hpos h
    omega
  · have := hneg h
    omega

/-- Settles O60: the operand is convertible, and its truncation is a division toward zero. -/
theorem ftoiTruncatesTowardZero : Obligations.FtoiTruncatesTowardZero := by
  intro cf a hfinite hlow hhigh
  obtain ⟨hge, hlt⟩ := F32.trunc_bounds hlow hhigh
  have hconvertible : F32.convertible a = true := by
    rw [F32.convertible, hfinite, decide_eq_true hge, decide_eq_true hlt]
    rfl
  rw [ftoi32_of_convertible cf hconvertible, BitVec.toInt_ofInt_eq_self (by decide) hge hlt]
  exact tdiv_brackets (F32.value a) (by decide)

end Sys2Proof.Machine
end

section
/-! SUPPORT. Rounding to nearest, ties to even (44_float.md R140): the magnitudes that the finite patterns have, in rising
order, and the one that `F32.roundMagnitude` chooses. Magnitudes are in units of 2^-149. -/

namespace Sys2Proof.Machine

/-! The magnitude of a pattern by its number. -/

/-- The magnitude of the pattern with these 31 low bits; past the finite patterns it goes on in the same way, so that the
pattern of infinity has the magnitude after the greatest finite one. -/
def F32.unitsOf (p : Nat) : Nat := if p < 2 ^ 23 then p else (p % 2 ^ 23 + 2 ^ 23) * 2 ^ (p / 2 ^ 23 - 1)

theorem F32.magnitude_eq_unitsOf (a : Word) : F32.magnitude a = F32.unitsOf (a.toNat % 2 ^ 31) := by
  have hzero : F32.exponent a = 0 ↔ a.toNat % 2 ^ 31 < 2 ^ 23 := by
    rw [← BitVec.toNat_inj, F32.exponent_toNat, BitVec.ofNat_eq_ofNat, BitVec.toNat_zero]
    omega
  rw [F32.magnitude, F32.unitsOf, F32.exponent_toNat, F32.fraction_toNat]
  by_cases h : a.toNat % 2 ^ 31 < 2 ^ 23
  · rw [if_pos (hzero.2 h), if_pos h, Nat.mod_eq_of_lt h]
  · rw [if_neg (mt hzero.1 h), if_neg h]

/-- A significand `q` of at most 24 bits, or the carry out of it, scaled by `2 ^ sh`: the exponent field and the fraction
together are `sh * 2 ^ 23 + q`. -/
theorem F32.unitsOf_scaled {sh q : Nat} (hq : q ≤ 2 ^ 24) (hnormal : sh = 0 ∨ 2 ^ 23 ≤ q) :
    F32.unitsOf (sh * 2 ^ 23 + q) = q * 2 ^ sh := by
  rw [F32.unitsOf]
  by_cases hsub : q < 2 ^ 23
  · obtain rfl : sh = 0 := by omega
    rw [if_pos (by omega), pow_zero, Nat.zero_mul, Nat.zero_add, Nat.mul_one]
  · rw [if_neg (by omega)]
    rcases hq.lt_or_eq with hlt | rfl
    · have hexponent : (sh * 2 ^ 23 + q) / 2 ^ 23 - 1 = sh := by omega
      have hfraction : (sh * 2 ^ 23 + q) % 2 ^ 23 + 2 ^ 23 = q := by omega
      rw [hexponent, hfraction]
    · have hexponent : (sh * 2 ^ 23 + 2 ^ 24) / 2 ^ 23 - 1 = sh + 1 := by omega
      have hfraction : (sh * 2 ^ 23 + 2 ^ 24) % 2 ^ 23 + 2 ^ 23 = 2 ^ 23 := by omega
      rw [hexponent, hfraction]
      ring

/-- Greater patterns have greater magnitudes. -/
theorem F32.unitsOf_strictMono : StrictMono F32.unitsOf := by
  refine strictMono_nat_of_lt_succ fun p => ?_
  obtain ⟨sh, q, rfl, hq, hnormal⟩ : ∃ sh q, p = sh * 2 ^ 23 + q ∧ q < 2 ^ 24 ∧ (sh = 0 ∨ 2 ^ 23 ≤ q) :=
    ⟨p / 2 ^ 23 - 1, p - (p / 2 ^ 23 - 1) * 2 ^ 23, by omega, by omega, by omega⟩
  rw [Nat.add_assoc, F32.unitsOf_scaled hq.le hnormal, F32.unitsOf_scaled hq (hnormal.imp_right (by omega))]
  exact Nat.mul_lt_mul_of_pos_right (Nat.lt_succ_self q) (Nat.two_pow_pos sh)

/-! The two candidates of a magnitude, and the choice between them. -/

/-- A magnitude cut to a significand of at most 24 bits, with the remainder that the cut drops. -/
structure F32.Cut (n sh q r : Nat) : Prop where
  sum : n = q * 2 ^ sh + r
  remainder : r < 2 ^ sh
  significand : q < 2 ^ 24
  normal : sh = 0 ∨ 2 ^ 23 ≤ q

/-- The remainder asks for the greater candidate: past the middle, or in the middle of an odd significand and an even one. -/
def F32.RoundsUp (sh q r : Nat) : Prop := 2 * r > 2 ^ sh ∨ 2 * r = 2 ^ sh ∧ q % 2 = 1

/-- Rounding cuts the magnitude and takes the pattern of the significand or the next one. -/
theorem F32.roundMagnitude_spec (n : Nat) :
    ∃ sh q r, F32.Cut n sh q r ∧
      (F32.RoundsUp sh q r ∧ F32.roundMagnitude n = sh * 2 ^ 23 + q + 1 ∨
        ¬ F32.RoundsUp sh q r ∧ F32.roundMagnitude n = sh * 2 ^ 23 + q) := by
  refine ⟨n.log2 - 23, n / 2 ^ (n.log2 - 23), n % 2 ^ (n.log2 - 23),
    ⟨(Nat.div_add_mod' n _).symm, Nat.mod_lt _ (Nat.two_pow_pos _), ?_, ?_⟩, ?_⟩
  · rw [Nat.div_lt_iff_lt_mul (Nat.two_pow_pos _), ← Nat.pow_add]
    exact Nat.lt_log2_self.trans_le (Nat.pow_le_pow_right (by decide) (by omega))
  · rcases Nat.lt_or_ge n.log2 23 with hsmall | hlarge
    · exact .inl (by omega)
    · right
      have hne : n ≠ 0 := by
        rintro rfl
        simp at hlarge
      rw [Nat.le_div_iff_mul_le (Nat.two_pow_pos _), ← Nat.pow_add, Nat.add_sub_cancel' hlarge]
      exact Nat.log2_self_le hne
  · simp only [F32.roundMagnitude]
    split_ifs with hup
    · exact .inl ⟨hup, (Nat.add_assoc _ _ _).symm⟩
    · exact .inr ⟨hup, rfl⟩

/-- The magnitude lies between the two candidates, which are one unit of the significand apart. -/
theorem F32.Cut.candidates {n sh q r : Nat} (h : F32.Cut n sh q r) :
    F32.unitsOf (sh * 2 ^ 23 + q) + r = n ∧ F32.unitsOf (sh * 2 ^ 23 + q + 1) = F32.unitsOf (sh * 2 ^ 23 + q) + 2 ^ sh := by
  have hlow := F32.unitsOf_scaled h.significand.le h.normal
  have hhigh := F32.unitsOf_scaled (sh := sh) (q := q + 1) h.significand (h.normal.imp_right (by omega))
  rw [Nat.add_assoc, hlow, hhigh, Nat.succ_mul]
  exact ⟨h.sum.symm, rfl⟩

/-- How far apart two magnitudes are. -/
def F32.gap (m n : Nat) : Nat := ((m : Int) - n).natAbs

/-- No pattern is closer to the magnitude than the rounded one, and of two equally close ones the rounded one is even. -/
theorem F32.roundMagnitude_nearest (n p : Nat) :
    F32.gap (F32.unitsOf (F32.roundMagnitude n)) n ≤ F32.gap (F32.unitsOf p) n ∧
      (F32.gap (F32.unitsOf (F32.roundMagnitude n)) n = F32.gap (F32.unitsOf p) n →
        F32.unitsOf p = F32.unitsOf (F32.roundMagnitude n) ∨ F32.roundMagnitude n % 2 = 0) := by
  obtain ⟨sh, q, r, hcut, hround⟩ := F32.roundMagnitude_spec n
  obtain ⟨hlow, hhigh⟩ := hcut.candidates
  have hr := hcut.remainder
  have houtside : F32.unitsOf p ≤ F32.unitsOf (sh * 2 ^ 23 + q) ∨
      F32.unitsOf (sh * 2 ^ 23 + q + 1) ≤ F32.unitsOf p :=
    (Nat.lt_or_ge (sh * 2 ^ 23 + q) p).symm.imp (F32.unitsOf_strictMono.monotone ·) (F32.unitsOf_strictMono.monotone ·)
  rw [F32.gap, F32.gap]
  rcases hround with ⟨hup, heq⟩ | ⟨hup, heq⟩
  · rw [heq]
    unfold F32.RoundsUp at hup
    omega
  · rw [heq]
    unfold F32.RoundsUp at hup
    omega

/-- The rounded pattern is a finite one exactly below the overflow threshold (R140). -/
theorem F32.roundMagnitude_lt_iff (n : Nat) :
    F32.roundMagnitude n < 255 * 2 ^ 23 ↔ n < (2 ^ 25 - 1) * 2 ^ 252 := by
  obtain ⟨sh, q, r, hcut, hround⟩ := F32.roundMagnitude_spec n
  obtain ⟨hlow, hhigh⟩ := hcut.candidates
  have hr := hcut.remainder
  have hgreatest : F32.unitsOf (255 * 2 ^ 23 - 1) = (2 ^ 24 - 1) * 2 ^ 253 :=
    F32.unitsOf_scaled (sh := 253) (q := 2 ^ 24 - 1) (by decide) (by decide)
  have hinfinity : F32.unitsOf (255 * 2 ^ 23) = 2 ^ 24 * 2 ^ 253 :=
    F32.unitsOf_scaled (sh := 253) (q := 2 ^ 24) (by decide) (by decide)
  rcases Nat.lt_trichotomy (sh * 2 ^ 23 + q + 1) (255 * 2 ^ 23) with hbelow | hlast | habove
  · have hle : F32.unitsOf (sh * 2 ^ 23 + q + 1) ≤ F32.unitsOf (255 * 2 ^ 23 - 1) :=
      F32.unitsOf_strictMono.monotone (by omega)
    exact iff_of_true (by omega) (by omega)
  · obtain ⟨rfl, rfl⟩ : sh = 253 ∧ q = 2 ^ 24 - 1 := by
      have hsignificand := hcut.significand
      have hnormal := hcut.normal
      omega
    have hsum := hcut.sum
    unfold F32.RoundsUp at hround
    omega
  · have hle : F32.unitsOf (255 * 2 ^ 23) ≤ F32.unitsOf (sh * 2 ^ 23 + q) :=
      F32.unitsOf_strictMono.monotone (by omega)
    exact iff_of_false (by omega) (by omega)

/-! The rounded word. -/

theorem F32.isFinite_iff {a : Word} : F32.isFinite a = true ↔ a.toNat % 2 ^ 31 < 255 * 2 ^ 23 := by
  have hbits : a.toNat % 2 ^ 31 < 2 ^ 31 := Nat.mod_lt _ (by decide)
  have hexponent : (255 : BitVec 8).toNat = 255 := rfl
  rw [F32.isFinite, bne_iff_ne, ne_eq, ← BitVec.toNat_inj, F32.exponent_toNat, hexponent]
  omega

theorem F32.sign_append (s : BitVec 1) (p : BitVec 31) : F32.sign (s ++ p) = s := BitVec.extractLsb'_append_eq_left

theorem F32.toNat_append_mod (s : BitVec 1) (p : BitVec 31) : (s ++ p).toNat % 2 ^ 31 = p.toNat := by
  have hlow : (s ++ p).extractLsb' 0 31 = p := BitVec.extractLsb'_append_eq_right
  rw [← congrArg BitVec.toNat hlow, BitVec.extractLsb'_toNat, Nat.shiftRight_zero]

theorem F32.not_isFinite_infinity (s : BitVec 1) : F32.isFinite (F32.infinity s) = false := by
  simp [F32.isFinite, F32.infinity]

/-- Below the overflow threshold the rounded word is the sign and the rounded pattern; from it on, the infinity. -/
theorem F32.round_cases (s : BitVec 1) (n : Nat) :
    (n < (2 ^ 25 - 1) * 2 ^ 252 ∧ F32.isFinite (F32.round s n) = true ∧ F32.sign (F32.round s n) = s ∧
        (F32.round s n).toNat % 2 ^ 31 = F32.roundMagnitude n) ∨
      (¬ n < (2 ^ 25 - 1) * 2 ^ 252 ∧ F32.isFinite (F32.round s n) = false ∧ F32.round s n = F32.infinity s) := by
  rw [← F32.roundMagnitude_lt_iff]
  by_cases hlt : F32.roundMagnitude n < 255 * 2 ^ 23
  · have hround : F32.round s n = s ++ BitVec.ofNat 31 (F32.roundMagnitude n) := if_neg (by omega)
    have hlow : (F32.round s n).toNat % 2 ^ 31 = F32.roundMagnitude n := by
      rw [hround, F32.toNat_append_mod, BitVec.toNat_ofNat, Nat.mod_eq_of_lt (by omega)]
    exact .inl ⟨hlt, F32.isFinite_iff.2 (hlow ▸ hlt), hround ▸ F32.sign_append s _, hlow⟩
  · have hround : F32.round s n = F32.infinity s := if_pos (by omega)
    exact .inr ⟨hlt, hround ▸ F32.not_isFinite_infinity s, hround⟩

/-! Nearest among all finite values. -/

/-- Values of one sign are as far apart as their magnitudes. -/
theorem F32.natAbs_signed_sub (s : BitVec 1) (m n : Nat) : (F32.signed s m - F32.signed s n).natAbs = F32.gap m n := by
  unfold F32.signed F32.gap
  split_ifs <;> omega

/-- Values of opposite signs are as far apart as their magnitudes together. -/
theorem F32.natAbs_signed_sub_of_ne {s t : BitVec 1} (h : t ≠ s) (m n : Nat) :
    (F32.signed t m - F32.signed s n).natAbs = m + n := by
  obtain ⟨rfl, rfl⟩ | ⟨rfl, rfl⟩ : (t = 0 ∧ s = 1) ∨ (t = 1 ∧ s = 0) := by
    revert s t
    decide
  · rw [F32.signed_zero, F32.signed_one]
    omega
  · rw [F32.signed_zero, F32.signed_one]
    omega

/-- No finite value is closer than the rounded one, and of two equally close ones the rounded one is even: a value of the
other sign is no closer than zero, which has both signs. -/
theorem F32.round_nearest {s : BitVec 1} {n : Nat} (hfinite : F32.isFinite (F32.round s n) = true) (c : Word) :
    (F32.value (F32.round s n) - F32.signed s n).natAbs ≤ (F32.value c - F32.signed s n).natAbs ∧
      ((F32.value (F32.round s n) - F32.signed s n).natAbs = (F32.value c - F32.signed s n).natAbs →
        F32.value c = F32.value (F32.round s n) ∨ (F32.round s n).getLsbD 0 = false) := by
  rcases F32.round_cases s n with ⟨-, -, hsign, hlow⟩ | ⟨-, hinfinite, -⟩
  · have heven : F32.roundMagnitude n % 2 = 0 → (F32.round s n).getLsbD 0 = false := by
      intro h
      rw [BitVec.getLsbD, Nat.testBit_zero]
      simp only [decide_eq_false_iff_not]
      omega
    rw [F32.value_eq_signed (F32.round s n), F32.value_eq_signed c, hsign, F32.magnitude_eq_unitsOf, hlow,
      F32.natAbs_signed_sub]
    by_cases hsame : F32.sign c = s
    · obtain ⟨hle, htie⟩ := F32.roundMagnitude_nearest n (c.toNat % 2 ^ 31)
      rw [hsame, F32.magnitude_eq_unitsOf c, F32.natAbs_signed_sub]
      exact ⟨hle, fun heq => (htie heq).imp (congrArg (F32.signed s)) heven⟩
    · obtain ⟨hle, htie⟩ := F32.roundMagnitude_nearest n 0
      have hzero : F32.gap (F32.unitsOf 0) n = n := by simp [F32.gap, F32.unitsOf]
      rw [hzero] at hle htie
      rw [F32.natAbs_signed_sub_of_ne hsame]
      refine ⟨by omega, fun heq => ?_⟩
      have hmagnitude : F32.magnitude c = 0 := by omega
      refine (htie (by omega)).imp (fun hunits => ?_) heven
      rw [hmagnitude, ← hunits]
      simp [F32.signed, F32.unitsOf]
  · nomatch hfinite.symm.trans hinfinite

/-- A finite difference is a rounding of the exact one: of a zero the sign is free, since both zeros have its value. -/
theorem fsub32Intended_eq_round {a b : Word} (ha : F32.isFinite a = true) (hb : F32.isFinite b = true) :
    ∃ s, fsub32Intended a b = F32.round s (F32.value a - F32.value b).natAbs ∧
      F32.value a - F32.value b = F32.signed s (F32.value a - F32.value b).natAbs := by
  rw [fsub32Intended_of_isFinite ha hb]
  by_cases hzero : F32.value a - F32.value b = 0
  · rw [if_pos hzero, hzero]
    by_cases hminus : F32.sign a = 1 ∧ F32.sign b = 0
    · exact ⟨1, (if_pos hminus).trans (by decide), rfl⟩
    · exact ⟨0, (if_neg hminus).trans (by decide), rfl⟩
  · rw [if_neg hzero]
    refine ⟨_, rfl, ?_⟩
    by_cases hneg : F32.value a - F32.value b < 0
    · rw [if_pos hneg, F32.signed_one]
      omega
    · rw [if_neg hneg, F32.signed_zero]
      omega

/-- Settles O58: the difference is a rounding of the exact one, which is finite below the threshold, nearest where it is
finite, and otherwise the infinity of the sign of a difference that is not zero. -/
theorem fsubIsCorrectlyRounded : Obligations.FsubIsCorrectlyRounded := by
  intro cf a b hunlisted ha hb
  obtain ⟨s, hround, hsigned⟩ := fsub32Intended_eq_round ha hb
  rw [fsub32_of_unlisted hunlisted, hround]
  refine ⟨?threshold, fun hinfinite => ?overflow, fun hfinite c _ => ?nearest⟩
  case threshold =>
    rcases F32.round_cases s (F32.value a - F32.value b).natAbs with ⟨hlt, hfinite, -⟩ | ⟨hge, hinfinite, -⟩
    · exact iff_of_true hfinite hlt
    · exact iff_of_false (by simp [hinfinite]) hge
  case overflow =>
    rcases F32.round_cases s (F32.value a - F32.value b).natAbs with ⟨-, hfinite, -⟩ | ⟨hge, -, heq⟩
    · nomatch hfinite.symm.trans hinfinite
    · rw [heq]
      obtain rfl | rfl : s = 0 ∨ s = 1 := BitVec.eq_zero_or_eq_one s
      · rw [F32.signed_zero] at hsigned
        rw [if_neg (by omega)]
      · rw [F32.signed_one] at hsigned
        rw [if_pos (by omega)]
  case nearest =>
    have hnearest := F32.round_nearest hfinite c
    rwa [← hsigned] at hnearest

end Sys2Proof.Machine
end
